-- ==== Sys2Proof/Word.lean ====
section
/-! DEFINITION. The word types of the engine: bytes of the shadow register file and of the command port, and the
32-bit words of the result read port (00_scope.md R6, R9). -/

namespace Sys2Proof

/-- A byte: one SRF cell, one command byte, one SRF address or one read-port index (R9). -/
abbrev Byte := BitVec 8

/-- A 32-bit word: STATUS, a result register, or what `RD` returns (R6, R9). -/
abbrev Word := BitVec 32

end Sys2Proof
end

