-- ==== Sys2Proof/Syntax.lean ====
section
/-! DEFINITION. The commands of the engine, one constructor per row of the opcode table (30_encoding.md R57, R58). -/

namespace Sys2Proof

/-- A command. No command but `reserved` carries anything: operands are fixed by the operation (R55, R60). -/
inductive Instr where
  /-- 0x00, no operation (R103) -/
  | nop
  /-- 0x01, fuse the calibration image into the coefficient file (R72) -/
  | ldcal
  /-- 0x02, assemble the data burst into the raw triple (R79) -/
  | ldraw
  /-- 0x03, temperature compensation (R85) -/
  | cmpt
  /-- 0x04, pressure compensation (R96) -/
  | cmpp
  /-- 0x05, humidity compensation (R102) -/
  | cmph
  /-- 0x06, clear the sticky STATUS bits (R104) -/
  | clrs
  /-- any other byte `c` (R58, R105) -/
  | reserved (c : Byte)
  deriving DecidableEq, Repr

/-- The mnemonics of R57 and R61; a reserved byte has none and is written `.cmd 0xNN`. -/
def Instr.mnemonic : Instr → Option String
  | .nop => some "NOP"
  | .ldcal => some "LDCAL"
  | .ldraw => some "LDRAW"
  | .cmpt => some "CMPT"
  | .cmpp => some "CMPP"
  | .cmph => some "CMPH"
  | .clrs => some "CLRS"
  | .reserved _ => none

end Sys2Proof
end

