-- ==== Sys2Proof/WellFormed.lean ====
section
/-! DEFINITION. Which terms of `Instr` are commands of the engine: a reserved command holds one of the 249 bytes
that R57 gives no operation (30_encoding.md R58). -/

namespace Sys2Proof

/-- A byte R57 does not list: RSV is not 0, or OP is 0111..1111 (R58). -/
def reservedByte (c : Byte) : Bool :=
  c.extractLsb' 4 4 != 0#4 || 7#4 ≤ c.extractLsb' 0 4

/-- The one check on a command term. -/
def Instr.wf : Instr → Bool
  | .nop => true
  | .ldcal => true
  | .ldraw => true
  | .cmpt => true
  | .cmpp => true
  | .cmph => true
  | .clrs => true
  | .reserved c => reservedByte c

end Sys2Proof
end

