-- ==== Sys2Proof/Decode.lean ====
section
/-! DEFINITION. Command decoding, total on the 256 byte values (30_encoding.md R55 to R59), and after it the encoder
of R57. -/

namespace Sys2Proof

/-- The field RSV, bits 7:4 of a command byte (R55). -/
def rsvField (c : Byte) : BitVec 4 := c.extractLsb' 4 4

/-- The field OP, bits 3:0 of a command byte (R55). -/
def opField (c : Byte) : BitVec 4 := c.extractLsb' 0 4

/-- `decode(CMD)` of R59, line by line. -/
def decodeByte (c : Byte) : Instr :=
  if rsvField c != 0#4 then .reserved c
  else
    match (opField c).toNat with
    | 0x0 => .nop
    | 0x1 => .ldcal
    | 0x2 => .ldraw
    | 0x3 => .cmpt
    | 0x4 => .cmpp
    | 0x5 => .cmph
    | 0x6 => .clrs
    | _ => .reserved c

/-- Why a byte list holds no command at its head. -/
inductive DecodeError where
  /-- there is no byte: a command is exactly one byte (R56) -/
  | noByte
  deriving DecidableEq, Repr

/-- The command at the head of a byte stream, and the bytes after it. A command is always one byte, so no length
decoding happens (R56). -/
def decode : List Byte → Except DecodeError (Instr × List Byte)
  | [] => .error .noByte
  | c :: rest => .ok (decodeByte c, rest)

/-- All the commands of a command-port byte stream, in order (R56). -/
def decodeStream : List Byte → List Instr
  | [] => []
  | c :: rest => decodeByte c :: decodeStream rest

/-- The bytes of a word of `nbits` bits numbered as the opcode table numbers them: the first byte holds bits 7..0. As many
whole bytes are laid out as hold `nbits` bits, and at least one, bits above `nbits` being 0. The widths that are no whole
number of bytes are the model's choice, DESIGN CHOICE (notes/assumptions/9.md). -/
def layOut (nbits w : Nat) : List Byte :=
  (List.range (max 1 ((nbits + 7) / 8))).map fun k => BitVec.ofNat 8 (w % 2 ^ nbits / 256 ^ k)

/-- What the decoder reads from a table word: the command of its one byte; none for a word of more than 8 bits, which is
longer than a command (R56; the widths no row has are DESIGN CHOICE, notes/assumptions/9.md). -/
def decodeTableWord (nbits w : Nat) : Option Instr :=
  match decode (layOut nbits w) with
  | .ok (i, []) => some i
  | .ok (_, _ :: _) => none
  | .error _ => none

/-- The command byte of a command (R57); a reserved command is its own byte (R61 `.cmd`). -/
def encode : Instr → Byte
  | .nop => 0x00#8
  | .ldcal => 0x01#8
  | .ldraw => 0x02#8
  | .cmpt => 0x03#8
  | .cmpp => 0x04#8
  | .cmph => 0x05#8
  | .clrs => 0x06#8
  | .reserved c => c

/-- The bytes a sequence of commands puts on the command port. -/
def encodeStream (is : List Instr) : List Byte := is.map encode

/-- The rows of R57: match, mask and the command they select. Every mask is 0xFF (R57). -/
def opcodeRows : List (Byte × Byte × Instr) :=
  [(0x00#8, 0xFF#8, .nop), (0x01#8, 0xFF#8, .ldcal), (0x02#8, 0xFF#8, .ldraw), (0x03#8, 0xFF#8, .cmpt),
   (0x04#8, 0xFF#8, .cmpp), (0x05#8, 0xFF#8, .cmph), (0x06#8, 0xFF#8, .clrs)]

end Sys2Proof
end

