-- ==== Sys2Proof/Config.lean ====
section
/-! DEFINITION. The implementation parameters of the spec (00_scope.md R7, R8) and its fixed sizes (R9).
Both parameters are carried by the state (`State.config`), so that every statement about every state covers
every choice of them (notes/assumptions/1.md). The spec leaves no value free, so there is no opaque constant. -/

namespace Sys2Proof

/-- `T_DIV_MODE` (R7): how the temperature output divides by 256. -/
inductive TDivMode where
  /-- arithmetic right shift by 8, rounding toward minus infinity; the spec's default -/
  | shift
  /-- division rounding toward zero -/
  | trunc
  deriving DecidableEq, Repr

/-- `OVF_POLICY` (R8): what a signed 32-bit overflow inside a compensation command does. -/
inductive OvfPolicy where
  /-- wrap modulo 2^32 and set STATUS.OVF; the spec's default -/
  | wrapFlag
  /-- stop with `Fault(Overflow)` -/
  | fault
  deriving DecidableEq, Repr

/-- The two parameters of one engine. No step changes them. -/
structure Config where
  tDivMode  : TDivMode
  ovfPolicy : OvfPolicy
  deriving DecidableEq, Repr

/-- The defaults the spec gives where a model does not pick (R7, R8). -/
def Config.standard : Config := { tDivMode := .shift, ovfPolicy := .wrapFlag }

/-- The SRF has 256 byte cells (R9, R40). -/
def srfSize : Nat := 256

end Sys2Proof
end

