-- ==== Sys2Proof/Machine/State.lean ====
section
/-! DEFINITION. The state of the engine, of its shadow register file and of the host that drives it, as plain data
(10_state.md R17 to R39, 20_memory.md R40), the two kinds of stop, and the state after reset (70_reset_and_hazards.md
R121). -/

namespace Sys2Proof.Machine

/-- Why a step faults. -/
inductive Fault where
  /-- `Fault(Overflow)` (R14): raised by CMPT, CMPP and CMPH when a signed result leaves 32 bits under
  `OVF_POLICY = FAULT` only. Safe: the model stops where the hardware would go on with a wrapped value. -/
  | overflow
  deriving DecidableEq, Repr

/-- Why a step has no meaning. -/
inductive Refusal where
  /-- an instruction without a meaning in the model, raised by `exec`; no instruction of this model is so. Safe. -/
  | notModelled (mnemonic : String)
  /-- a schedule in which two agents issue actions to the engine, raised by `step` (R17, R117). Safe: the spec gives
  such a schedule no meaning. -/
  | secondHost
  deriving DecidableEq, Repr

/-- The coefficient file (R19), each register with the width R19 gives it. H4 and H5 are 12-bit fields held
sign-extended in 16 bits. -/
structure Calib where
  t1 : BitVec 16
  t2 : BitVec 16
  t3 : BitVec 16
  p1 : BitVec 16
  p2 : BitVec 16
  p3 : BitVec 16
  p4 : BitVec 16
  p5 : BitVec 16
  p6 : BitVec 16
  p7 : BitVec 16
  p8 : BitVec 16
  p9 : BitVec 16
  h1 : BitVec 8
  h2 : BitVec 16
  h3 : BitVec 8
  h4 : BitVec 16
  h5 : BitVec 16
  h6 : BitVec 8
  deriving DecidableEq, Repr

/-- The coefficient file after reset (R121). -/
def Calib.zero : Calib :=
  { t1 := 0, t2 := 0, t3 := 0, p1 := 0, p2 := 0, p3 := 0, p4 := 0, p5 := 0, p6 := 0, p7 := 0, p8 := 0, p9 := 0,
    h1 := 0, h2 := 0, h3 := 0, h4 := 0, h5 := 0, h6 := 0 }

/-- One action of a host on the engine (R17, R61). -/
inductive HostAction where
  /-- `WR a, v`: write byte `v` to SRF cell `a` (R40) -/
  | write (a v : Byte)
  /-- a byte on the command port (R54, R55) -/
  | command (c : Byte)
  /-- `RD idx`: read register number `idx` (R106) -/
  | read (idx : Byte)
  deriving DecidableEq, Repr

/-- One thing that arrives at the engine from outside. -/
inductive Request where
  /-- an action of the agent numbered `issuer`; the number is the model's own (notes/assumptions/4.md) -/
  | host (issuer : Nat) (action : HostAction)
  /-- a pulse of the reset input (R122, notes/assumptions/5.md) -/
  | reset
  deriving DecidableEq, Repr

/-- The shadow register file as its cells that do not hold 0x00, by rising address (R40, R121). -/
abbrev Memory := List Host.Cell

/-- The whole state: the engine's registers (R18) and SRF (R40), then the model's own fields. -/
structure State where
  /-- STATUS (R25) -/
  status   : Word
  /-- T_OUT, s32 (R22) -/
  tOut     : Word
  /-- P_OUT, u32 (R23) -/
  pOut     : Word
  /-- H_OUT, u32 (R24) -/
  hOut     : Word
  /-- T_FINE, s32 (R21) -/
  tFine    : Word
  /-- ADC_T, u20 (R20) -/
  adcT     : BitVec 20
  /-- ADC_P, u20 (R20) -/
  adcP     : BitVec 20
  /-- ADC_H, u16 (R20) -/
  adcH     : BitVec 16
  /-- T1..H6 (R19) -/
  calib    : Calib
  /-- the shadow register file (R40) -/
  srf      : Memory
  /-- `T_DIV_MODE` and `OVF_POLICY` (R7, R8), fixed for the machine (notes/assumptions/1.md) -/
  config   : Config
  /-- what is still to arrive at the engine, oldest first (R36, R51, notes/assumptions/2.md) -/
  schedule : List Request
  /-- the words the host's reads have returned, oldest first (R106, notes/assumptions/3.md) -/
  received : List Word
  deriving DecidableEq, Repr

/-- The state after reset of an engine with parameters `c` (R121). -/
def State.resetWith (c : Config) : State :=
  { status := 0, tOut := 0, pOut := 0, hOut := 0, tFine := 0, adcT := 0, adcP := 0, adcH := 0,
    calib := Calib.zero, srf := [], config := c, schedule := [], received := [] }

/-- The machine right after reset, with the spec's default parameters (R7, R8, R121). -/
def State.reset : State := State.resetWith Config.standard

end Sys2Proof.Machine
end

