-- ==== Sys2Proof/Machine/Arith.lean ====
section
/-! DEFINITION. The 32-bit arithmetic of the compensation commands: signed operations checked by `s32chk`
(00_scope.md R12), unsigned operations modulo 2^32 and the conversions between the two (R13). Values are mathematical
integers, as in the spec; a register holds the bits of one. -/

namespace Sys2Proof.Machine

/-- A computation inside one compensation command: under a policy (R8), from the overflow mark `ovf` so far, either
`Fault(Overflow)` or a value and the overflow mark after it (R12, R14). -/
abbrev Arith := ReaderT OvfPolicy (StateT Bool (Except Fault))

/-- Run a computation under policy `p` from the overflow mark `o`. -/
def Arith.eval {α : Type} (m : Arith α) (p : OvfPolicy) (o : Bool) : Except Fault (α × Bool) := (m.run p).run o

/-- `r` lies in s32 (R11). -/
abbrev inS32 (r : Int) : Prop := -2147483648 ≤ r ∧ r ≤ 2147483647

/-- `((r + 2^31) mod 2^32) - 2^31` (R12). -/
def wrapS32 (r : Int) : Int := (r + 2147483648) % 4294967296 - 2147483648

/-- `s32chk(r)` (R12). -/
def s32chk (r : Int) : Arith Int := fun policy ovf =>
  if inS32 r then .ok (r, ovf)
  else
    match policy with
    | .wrapFlag => .ok (wrapS32 r, true)
    | .fault => .error .overflow

/-- `sadd(a, b)` (R12). -/
def sadd (a b : Int) : Arith Int := s32chk (a + b)

/-- `ssub(a, b)` (R12). -/
def ssub (a b : Int) : Arith Int := s32chk (a - b)

/-- `smul(a, b)` (R12). -/
def smul (a b : Int) : Arith Int := s32chk (a * b)

/-- `sshl(a, k)`: a left shift defined as multiplication (R12). -/
def sshl (a : Int) (k : Nat) : Arith Int := s32chk (a * 2 ^ k)

/-- `asr(a, k) = floor(a / 2^k)`; never overflows (R12). -/
def asr (a : Int) (k : Nat) : Int := a / 2 ^ k

/-- `trunc(a / 256)` of R83: division rounding toward zero. -/
def truncDiv256 (a : Int) : Int := a.tdiv 256

/-- `uadd(a, b)` (R13). -/
def uadd (a b : Nat) : Nat := (a + b) % 4294967296

/-- `usub(a, b)` (R13). -/
def usub (a b : Nat) : Nat := (((a : Int) - (b : Int)) % 4294967296).toNat

/-- `umul(a, b)` (R13). -/
def umul (a b : Nat) : Nat := (a * b) % 4294967296

/-- `ushl(a, k)` (R13). -/
def ushl (a k : Nat) : Nat := (a * 2 ^ k) % 4294967296

/-- `lsr(a, k)` (R13). -/
def lsr (a k : Nat) : Nat := a / 2 ^ k

/-- `udiv(a, b)`, used only with `b` not 0 (R13, R92). -/
def udiv (a b : Nat) : Nat := a / b

/-- `as_u32(s) = s mod 2^32` (R13). -/
def asU32 (s : Int) : Nat := (s % 4294967296).toNat

/-- `as_s32(u)` (R13). -/
def asS32 (u : Nat) : Int := if 2147483648 ≤ u then (u : Int) - 4294967296 else u

end Sys2Proof.Machine
end

