-- ==== Sys2Proof/Machine/Commit.lean ====
section
/-! DEFINITION. How a compensation command ends: all its writes together, or `Fault(Overflow)` and none of them
(00_scope.md R14, R15, 60_exceptions.md R113). -/

namespace Sys2Proof.Machine

/-- What a command answers. -/
abbrev Answer := Host.Outcome State Fault Refusal

/-- Run the computation `m` of a command in state `s` with `ovf <- 0`, and write with `k` from its value and its
overflow mark; an overflow under `OVF_POLICY = FAULT` ends the command with nothing written (R12, R14, R48). -/
def commit {α : Type} (m : Arith α) (s : State) (k : α → Bool → State) : Answer :=
  match m.eval s.config.ovfPolicy false with
  | .ok (v, ovf) => .next (k v ovf)
  | .error f => .fault f

end Sys2Proof.Machine
end

