-- ==== Sys2Proof/Machine/Flags.lean ====
section
/-! DEFINITION. The STATUS register's fields (10_state.md R25 to R35) and every STATUS computation a command makes. -/

namespace Sys2Proof.Machine

/-- The fields of STATUS (R25). -/
inductive Flag where
  /-- an LDCAL has run since reset (R26) -/
  | calv
  /-- an LDRAW has run since reset (R27) -/
  | rawv
  /-- T_FINE belongs to the current sample and calibration (R28) -/
  | tfv
  /-- the most recent CMPP found var1 = 0 (R29) -/
  | pfail
  /-- sticky: a CMPP or CMPH ran with TFV = 0 (R30) -/
  | ord
  /-- sticky: a compensation ran with CALV = 0 (R31) -/
  | nocal
  /-- sticky: a compensation ran with RAWV = 0 (R32) -/
  | noraw
  /-- sticky: a signed overflow (R33) -/
  | ovf
  /-- sticky: a reserved command byte (R34) -/
  | ill
  deriving DecidableEq, Repr

/-- The bit of STATUS a field stands at (R25). -/
def Flag.bit : Flag → Nat
  | .calv => 0
  | .rawv => 1
  | .tfv => 2
  | .pfail => 3
  | .ord => 4
  | .nocal => 5
  | .noraw => 6
  | .ovf => 7
  | .ill => 8

/-- The sticky fields (R25). -/
def Flag.sticky : Flag → Bool
  | .calv => false
  | .rawv => false
  | .tfv => false
  | .pfail => false
  | .ord => true
  | .nocal => true
  | .noraw => true
  | .ovf => true
  | .ill => true

/-- A word with the one bit of field `f` set. -/
def Flag.mask (f : Flag) : Word := 1#32 <<< f.bit

/-- Field `f` of the STATUS word `w`. -/
def getFlag (f : Flag) (w : Word) : Bool := w.getLsbD f.bit

/-- `ST.f <- b`. -/
def putFlag (f : Flag) (b : Bool) (w : Word) : Word := if b then w ||| f.mask else w &&& ~~~f.mask

/-- `ST.f <- ST.f | b`. -/
def orFlag (f : Flag) (b : Bool) (w : Word) : Word := putFlag f (getFlag f w || b) w

/-- `ST.f`. -/
def State.flag (s : State) (f : Flag) : Bool := getFlag f s.status

/-- STATUS after LDCAL (R72). -/
def ldcalStatus (w : Word) : Word := putFlag .tfv false (putFlag .calv true w)

/-- STATUS after LDRAW (R79). -/
def ldrawStatus (w : Word) : Word := putFlag .tfv false (putFlag .rawv true w)

/-- NOCAL, NORAW and OVF ORed in, as at the end of every compensation command (R85, R96, R102); `w0` is STATUS before
the command. -/
def orInputErrors (w0 : Word) (ovf : Bool) (w : Word) : Word :=
  orFlag .ovf ovf (orFlag .noraw (!getFlag .rawv w0) (orFlag .nocal (!getFlag .calv w0) w))

/-- STATUS after CMPT (R85). -/
def cmptStatus (ovf : Bool) (w : Word) : Word := orInputErrors w ovf (putFlag .tfv true w)

/-- STATUS after CMPP (R96). -/
def cmppStatus (pfail ovf : Bool) (w : Word) : Word :=
  orInputErrors w ovf (orFlag .ord (!getFlag .tfv w) (putFlag .pfail pfail w))

/-- STATUS after CMPH (R102). -/
def cmphStatus (ovf : Bool) (w : Word) : Word := orInputErrors w ovf (orFlag .ord (!getFlag .tfv w) w)

/-- STATUS after CLRS (R104). -/
def clrsStatus (w : Word) : Word :=
  putFlag .ill false (putFlag .ovf false (putFlag .noraw false (putFlag .nocal false (putFlag .ord false w))))

/-- STATUS after a reserved command byte (R105). -/
def reservedStatus (w : Word) : Word := putFlag .ill true w

end Sys2Proof.Machine
end

