-- ==== Sys2Proof/Machine/Control.lean ====
section
/-! DEFINITION. NOP, CLRS and the reserved command bytes (45_control.md R103 to R105). -/

namespace Sys2Proof.Machine

/-- NOP: nothing (R103). -/
def execNop (s : State) : Answer := .next s

/-- CLRS: clear the five sticky bits (R104). -/
def execClrs (s : State) : Answer := .next { s with status := clrsStatus s.status }

/-- Reserved(c): set ILL; the byte is not recorded (R105, R110). -/
def execReserved (_c : Byte) (s : State) : Answer := .next { s with status := reservedStatus s.status }

end Sys2Proof.Machine
end

