-- ==== Sys2Proof/Machine/Ops.lean ====
section
/-! DEFINITION. The named operations over the shadow register file and the registers (00_scope.md R15, 20_memory.md
R40 to R50), and the register numbers of the result read port (10_state.md R39, 45_control.md R106).
The engine takes no exception and returns from none (60_exceptions.md R109, R114, R115), so there is no such operation. -/

namespace Sys2Proof.Machine

/-- What a cell that is not listed reads as: the reset contents of the SRF (R121). -/
def Memory.unlisted : Byte := 0x00#8

/-- The byte at address `a`. -/
def Memory.read : Memory → Nat → Byte
  | [], _ => Memory.unlisted
  | (b, w) :: m, a => if a = b then w else Memory.read m a

/-- Write byte `v` at address `a`, keeping the canonical form. -/
def Memory.write : Memory → Nat → Byte → Memory
  | [], a, v => if v = Memory.unlisted then [] else [(a, v)]
  | (b, w) :: m, a, v =>
    if a < b then (if v = Memory.unlisted then (b, w) :: m else (a, v) :: (b, w) :: m)
    else if a = b then (if v = Memory.unlisted then m else (a, v) :: m)
    else (b, w) :: Memory.write m a v

/-- The canonical form: addresses below 256 and strictly rising, and no listed byte is what an unlisted cell reads
as. -/
abbrev Memory.wf (m : Memory) : Prop :=
  m.Pairwise (fun x y => x.1 < y.1) ∧ ∀ x ∈ m, x.1 < srfSize ∧ x.2 ≠ Memory.unlisted

/-- `SRF[a]` (R15). -/
def srfByte (s : State) (a : Byte) : Byte := s.srf.read a.toNat

/-- `MemRead(a, n)`: the bytes at a, a+1, ..., a+n-1, taken at one instant (R15). -/
def memRead (s : State) (a : Byte) : Nat → List Byte
  | 0 => []
  | n + 1 => srfByte s a :: memRead s (a + 1#8) n

/-- `MemWrite(a, 1, v)`: only the host does this (R15, R40). -/
def memWrite (s : State) (a v : Byte) : State := { s with srf := s.srf.write a.toNat v }

/-- The names of the 18 coefficients (R19). -/
inductive Coeff where
  | t1 | t2 | t3 | p1 | p2 | p3 | p4 | p5 | p6 | p7 | p8 | p9 | h1 | h2 | h3 | h4 | h5 | h6
  deriving DecidableEq, Repr

/-- The mathematical value of a coefficient: unsigned for T1, P1, H1 and H3, signed for the others (R12, R19). -/
def Calib.value (c : Calib) : Coeff → Int
  | .t1 => c.t1.toNat
  | .t2 => c.t2.toInt
  | .t3 => c.t3.toInt
  | .p1 => c.p1.toNat
  | .p2 => c.p2.toInt
  | .p3 => c.p3.toInt
  | .p4 => c.p4.toInt
  | .p5 => c.p5.toInt
  | .p6 => c.p6.toInt
  | .p7 => c.p7.toInt
  | .p8 => c.p8.toInt
  | .p9 => c.p9.toInt
  | .h1 => c.h1.toNat
  | .h2 => c.h2.toInt
  | .h3 => c.h3.toNat
  | .h4 => c.h4.toInt
  | .h5 => c.h5.toInt
  | .h6 => c.h6.toInt

/-- The engine registers that have a number on the read port (R18). -/
inductive Reg where
  | status | tOut | pOut | hOut | tFine | adcT | adcP | adcH
  | coeff (c : Coeff)
  deriving DecidableEq, Repr

/-- The coefficient with number 0x10 + k (R19). -/
def Coeff.ofOffset : Nat → Option Coeff
  | 0 => some .t1
  | 1 => some .t2
  | 2 => some .t3
  | 3 => some .p1
  | 4 => some .p2
  | 5 => some .p3
  | 6 => some .p4
  | 7 => some .p5
  | 8 => some .p6
  | 9 => some .p7
  | 10 => some .p8
  | 11 => some .p9
  | 12 => some .h1
  | 13 => some .h2
  | 14 => some .h3
  | 15 => some .h4
  | 16 => some .h5
  | 17 => some .h6
  | _ => none

/-- The register with read-port index `idx`; none for a reserved index (R39). -/
def Reg.ofIndex (idx : Byte) : Option Reg :=
  match idx.toNat with
  | 0x00 => some .status
  | 0x01 => some .tOut
  | 0x02 => some .pOut
  | 0x03 => some .hOut
  | 0x04 => some .tFine
  | 0x05 => some .adcT
  | 0x06 => some .adcP
  | 0x07 => some .adcH
  | n => if 0x10 ≤ n then (Coeff.ofOffset (n - 0x10)).map .coeff else none

/-- The 32-bit word a register is returned as: signed registers as their two's-complement pattern, unsigned ones
zero-extended (R39, R106). -/
def regWord (s : State) : Reg → Word
  | .status => s.status
  | .tOut => s.tOut
  | .pOut => s.pOut
  | .hOut => s.hOut
  | .tFine => s.tFine
  | .adcT => s.adcT.setWidth 32
  | .adcP => s.adcP.setWidth 32
  | .adcH => s.adcH.setWidth 32
  | .coeff c => BitVec.ofInt 32 (s.calib.value c)

/-- `RD(idx)`: a reserved index reads 0x00000000 (R39, R106). -/
def readPort (s : State) (idx : Byte) : Word :=
  match Reg.ofIndex idx with
  | some r => regWord s r
  | none => 0x00000000#32

end Sys2Proof.Machine
end

