-- ==== Sys2Proof/Machine/Operands.lean ====
section
/-! DEFINITION. Operand assembly from the shadow register file: the little-endian calibration words and the packed H4
and H5 (40_calibration_fusion.md R63 to R71), and the big-endian readings of the data burst (41_raw_acquisition.md R75
to R78). Values are exact; none of this sets OVF (R71). -/

namespace Sys2Proof.Machine

/-- `sext_n(v)` of a non-negative n-bit field (R11). -/
def sext (n v : Nat) : Int := if v.testBit (n - 1) then (v : Int) - 2 ^ n else v

/-- `word(a) = SRF[a] + 256 * SRF[a+1]` (R45, R64). -/
def srfWord (s : State) (a : Byte) : Nat := (srfByte s a).toNat + 256 * (srfByte s (a + 1#8)).toNat

/-- An unsigned 16-bit coefficient at `a` (R64). -/
def fuseU16 (s : State) (a : Byte) : BitVec 16 := BitVec.ofNat 16 (srfWord s a)

/-- A signed 16-bit coefficient at `a` (R64, R66). -/
def fuseS16 (s : State) (a : Byte) : BitVec 16 := BitVec.ofInt 16 (sext 16 (srfWord s a))

/-- An unsigned 8-bit coefficient at `a` (R65, R67). -/
def fuseU8 (s : State) (a : Byte) : BitVec 8 := BitVec.ofNat 8 (srfByte s a).toNat

/-- A signed 8-bit coefficient at `a` (R70). -/
def fuseS8 (s : State) (a : Byte) : BitVec 8 := BitVec.ofInt 8 (sext 8 (srfByte s a).toNat)

/-- The 16-bit pattern of a packed 12-bit field: when bit 11 is set, the top nibble 0xF000 is set too (R68, R69). -/
def signTop12 (h : Nat) : Nat := if h &&& 0x0800 ≠ 0 then h ||| 0xF000 else h

/-- H4, from 0xE4 and the low nibble of 0xE5 (R68). -/
def fuseH4 (s : State) : BitVec 16 :=
  BitVec.ofInt 16 (sext 16 (signTop12 ((srfByte s 0xE4#8).toNat * 16 + ((srfByte s 0xE5#8).toNat &&& 0x0F))))

/-- H5, from 0xE6 and the high nibble of 0xE5 (R69). -/
def fuseH5 (s : State) : BitVec 16 :=
  BitVec.ofInt 16 (sext 16 (signTop12 ((srfByte s 0xE6#8).toNat * 16 + ((srfByte s 0xE5#8).toNat >>> 4))))

/-- The 18 coefficients of the calibration image in the SRF (R63 to R70, R72). -/
def fuseCalib (s : State) : Calib :=
  { t1 := fuseU16 s 0x88#8
    t2 := fuseS16 s 0x8A#8
    t3 := fuseS16 s 0x8C#8
    p1 := fuseU16 s 0x8E#8
    p2 := fuseS16 s 0x90#8
    p3 := fuseS16 s 0x92#8
    p4 := fuseS16 s 0x94#8
    p5 := fuseS16 s 0x96#8
    p6 := fuseS16 s 0x98#8
    p7 := fuseS16 s 0x9A#8
    p8 := fuseS16 s 0x9C#8
    p9 := fuseS16 s 0x9E#8
    h1 := fuseU8 s 0xA1#8
    h2 := fuseS16 s 0xE1#8
    h3 := fuseU8 s 0xE3#8
    h4 := fuseH4 s
    h5 := fuseH5 s
    h6 := fuseS8 s 0xE7#8 }

/-- A 20-bit reading from its MSB, LSB and XLSB: the 24-bit big-endian value shifted right by 4 (R46, R75, R76). -/
def reading20 (msb lsb xlsb : Byte) : BitVec 20 :=
  BitVec.ofNat 20 ((msb.toNat * 65536 + lsb.toNat * 256 + xlsb.toNat) >>> 4)

/-- A 16-bit reading from its MSB and LSB (R46, R77). -/
def reading16 (msb lsb : Byte) : BitVec 16 := BitVec.ofNat 16 (msb.toNat * 256 + lsb.toNat)

/-- `b[k]` of a burst (R79). -/
def burstByte (b : List Byte) (k : Nat) : Byte := b.getD k 0#8

end Sys2Proof.Machine
end

