-- ==== Sys2Proof/Machine/Fusion.lean ====
section
/-! DEFINITION. LDCAL: calibration coefficient fusion (40_calibration_fusion.md R72 to R74). -/

namespace Sys2Proof.Machine

/-- LDCAL: all 18 coefficients from one snapshot of the SRF; CALV = 1, TFV = 0 (R72, R73). -/
def execLdcal (s : State) : Answer :=
  .next { s with calib := fuseCalib s, status := ldcalStatus s.status }

end Sys2Proof.Machine
end

