-- ==== Sys2Proof/Machine/Humidity.lean ====
section
/-! DEFINITION. CMPH: humidity compensation (44_humidity.md R97 to R102). -/

namespace Sys2Proof.Machine

/-- The `a` factor of the polynomial (R97). -/
def humA (v adcH h4 h5 : Int) : Arith Int := do
  let a ← ssub (← ssub (← sshl adcH 14) (← sshl h4 20)) (← smul h5 v)
  return asr (← sadd a 16384) 15

/-- The `b` factor of the polynomial (R97). -/
def humB (v h2 h3 h6 : Int) : Arith Int := do
  let b := asr (← smul v h6) 10
  let c ← sadd (asr (← smul v h3) 11) 32768
  let b := asr (← smul b c) 10
  let b ← sadd b 2097152
  return asr (← sadd (← smul b h2) 8192) 14

/-- The square correction (R98). -/
def humCorrect (v h1 : Int) : Arith Int := do
  let w := asr v 15
  ssub v (asr (← smul (asr (← smul w w) 7) h1) 4)

/-- The clamp to [0, 419430400] (R99). -/
def humClamp (v : Int) : Int :=
  let v := if v < 0 then 0 else v
  if v > 419430400 then 419430400 else v

/-- H, in 1024ths of %RH (R100, R102). -/
def humidity (tf adcH : Int) (c : Calib) : Arith Int := do
  let v ← ssub tf 76800
  let a ← humA v adcH (c.value .h4) (c.value .h5)
  let b ← humB v (c.value .h2) (c.value .h3) (c.value .h6)
  let v ← smul a b
  let v ← humCorrect v (c.value .h1)
  return asr (humClamp v) 12

/-- CMPH (R102). -/
def execCmph (s : State) : Answer :=
  commit (humidity s.tFine.toInt s.adcH.toNat s.calib) s fun h ovf =>
    { s with
      hOut := BitVec.ofInt 32 h
      status := cmphStatus ovf s.status }

end Sys2Proof.Machine
end

