-- ==== Sys2Proof/Machine/Pressure.lean ====
section
/-! DEFINITION. CMPP: pressure compensation (43_pressure.md R88 to R96). -/

namespace Sys2Proof.Machine

/-- v1 of the first stage (R88); q is `asr v1 2`. -/
def pressCentre (tf : Int) : Arith Int := ssub (asr tf 1) 64000

/-- v2 of the first stage, from v1 and q (R88). -/
def pressOffset (v1 q p4 p5 p6 : Int) : Arith Int := do
  let v2 ← smul (asr (← smul q q) 11) p6
  let v2 ← sadd v2 (← sshl (← smul v1 p5) 1)
  sadd (asr v2 2) (← sshl p4 16)

/-- The first line of the second stage (R89). -/
def pressSlope (v1 q p2 p3 : Int) : Arith Int := do
  return asr (← sadd (asr (← smul p3 (asr (← smul q q) 13)) 3) (asr (← smul p2 v1) 1)) 18

/-- The second line of the second stage: the divisor v1 (R89). -/
def pressDivisor (v1 p1 : Int) : Arith Int := do
  return asr (← smul (← sadd 32768 v1) p1) 15

/-- The two forms of the division, chosen on p after the multiplication (R91). -/
def pressQuotient (p d : Nat) : Nat :=
  if p < 0x80000000 then udiv (ushl p 1) d else umul (udiv p d) 2

/-- The division stage, in unsigned arithmetic; reached only with v1 not 0 (R91, R92). -/
def pressDivide (adcP v1 v2 : Int) : Arith Nat := do
  let p := usub (asU32 (← ssub 1048576 adcP)) (asU32 (asr v2 12))
  return pressQuotient (umul p 3125) (asU32 v1)

/-- The final correction (R93). -/
def pressCorrect (p : Nat) (p7 p8 p9 : Int) : Arith Nat := do
  let w1 := asr (← smul p9 (asS32 (lsr (umul (lsr p 3) (lsr p 3)) 13))) 12
  let w2 := asr (← smul (asS32 (lsr p 2)) p8) 13
  return asU32 (← sadd (asS32 p) (asr (← sadd (← sadd w1 w2) p7) 4))

/-- The pressure in Pa; none for degenerate calibration, where the guard stops the computation (R90, R96). -/
def pressure (tf adcP : Int) (c : Calib) : Arith (Option Nat) := do
  let v1 ← pressCentre tf
  let q := asr v1 2
  let v2 ← pressOffset v1 q (c.value .p4) (c.value .p5) (c.value .p6)
  let v1 ← pressSlope v1 q (c.value .p2) (c.value .p3)
  let v1 ← pressDivisor v1 (c.value .p1)
  if v1 = 0 then return none
  else
    let p ← pressDivide adcP v1 v2
    let p ← pressCorrect p (c.value .p7) (c.value .p8) (c.value .p9)
    return some p

/-- P_OUT and PFAIL from what the computation gave: 0 and 1 on the guard path (R90, R96). -/
def writePressure (s : State) (p : Option Nat) (ovf : Bool) : State :=
  { s with
    pOut := BitVec.ofNat 32 (p.getD 0)
    status := cmppStatus p.isNone ovf s.status }

/-- CMPP (R96). -/
def execCmpp (s : State) : Answer :=
  commit (pressure s.tFine.toInt s.adcP.toNat s.calib) s (writePressure s)

end Sys2Proof.Machine
end

