-- ==== Sys2Proof/Machine/Raw.lean ====
section
/-! DEFINITION. LDRAW: raw sample assembly (41_raw_acquisition.md R75 to R79). -/

namespace Sys2Proof.Machine

/-- LDRAW: the raw triple from one snapshot of the burst at 0xF7..0xFE; RAWV = 1, TFV = 0 (R79). -/
def execLdraw (s : State) : Answer :=
  let b := memRead s 0xF7#8 8
  .next { s with
    adcP := reading20 (burstByte b 0) (burstByte b 1) (burstByte b 2)
    adcT := reading20 (burstByte b 3) (burstByte b 4) (burstByte b 5)
    adcH := reading16 (burstByte b 6) (burstByte b 7)
    status := ldrawStatus s.status }

end Sys2Proof.Machine
end

