-- ==== Sys2Proof/Machine/Temperature.lean ====
section
/-! DEFINITION. CMPT: temperature compensation (42_temperature.md R80 to R87). -/

namespace Sys2Proof.Machine

/-- The first term var1 (R80). -/
def tempTerm1 (adcT t1 t2 : Int) : Arith Int := do
  let a ← ssub (asr adcT 3) (← sshl t1 1)
  return asr (← smul a t2) 11

/-- The second term var2 (R81). -/
def tempTerm2 (adcT t1 t3 : Int) : Arith Int := do
  let b ← ssub (asr adcT 4) t1
  return asr (← smul (asr (← smul b b) 12) t3) 14

/-- t_fine (R82). -/
def fineTemp (adcT t1 t2 t3 : Int) : Arith Int := do
  let var1 ← tempTerm1 adcT t1 t2
  let var2 ← tempTerm2 adcT t1 t3
  sadd var1 var2

/-- The division of the output by 256, by `T_DIV_MODE` (R7, R83). -/
def tempDiv (mode : TDivMode) (num : Int) : Int :=
  match mode with
  | .shift => asr num 8
  | .trunc => truncDiv256 num

/-- T from t_fine (R83). -/
def tempOutput (mode : TDivMode) (tf : Int) : Arith Int := do
  let num ← sadd (← smul tf 5) 128
  return tempDiv mode num

/-- t_fine and T, in the order of R85. -/
def temperature (mode : TDivMode) (adcT : Int) (c : Calib) : Arith (Int × Int) := do
  let tf ← fineTemp adcT (c.value .t1) (c.value .t2) (c.value .t3)
  let t ← tempOutput mode tf
  return (tf, t)

/-- CMPT (R85). -/
def execCmpt (s : State) : Answer :=
  commit (temperature s.config.tDivMode s.adcT.toNat s.calib) s fun v ovf =>
    { s with
      tFine := BitVec.ofInt 32 v.1
      tOut := BitVec.ofInt 32 v.2
      status := cmptStatus ovf s.status }

end Sys2Proof.Machine
end

