-- ==== Sys2Proof/Machine/Dispatch.lean ====
section
/-! DEFINITION. The meaning of every command: one arm per constructor of `Instr`. -/

namespace Sys2Proof.Machine

def exec (i : Instr) (s : State) : Host.Outcome State Fault Refusal :=
  match i with
  | .nop => Sys2Proof.Machine.execNop s
  | .ldcal => Sys2Proof.Machine.execLdcal s
  | .ldraw => Sys2Proof.Machine.execLdraw s
  | .cmpt => Sys2Proof.Machine.execCmpt s
  | .cmpp => Sys2Proof.Machine.execCmpp s
  | .cmph => Sys2Proof.Machine.execCmph s
  | .clrs => Sys2Proof.Machine.execClrs s
  | .reserved c => Sys2Proof.Machine.execReserved c s

end Sys2Proof.Machine
end

