-- ==== Sys2Proof/Machine/HostPort.lean ====
section
/-! DEFINITION. What arrives at the engine from outside: the host's SRF writes and result reads (20_memory.md R40,
45_control.md R106), the reset input (70_reset_and_hazards.md R121, R122), and the one-host rule (60_exceptions.md
R117). -/

namespace Sys2Proof.Machine

/-- The command byte of a table word; a command is one byte, so bits above the eighth are not laid out (R56; at
other widths than 8 DESIGN CHOICE, notes/assumptions/9.md). -/
def commandByte (nbits w : Nat) : Byte := BitVec.ofNat 8 (w % 2 ^ nbits)

/-- The agents that issue the actions of a schedule, in order. -/
def issuers (q : List Request) : List Nat :=
  q.filterMap fun r =>
    match r with
    | .host k _ => some k
    | .reset => none

/-- At most one agent issues actions in the schedule (R17, R117). -/
def singleHost (q : List Request) : Bool :=
  match issuers q with
  | [] => true
  | k :: ks => ks.all (· == k)

/-- `WR a, v`: changes the addressed cell only (R40, R50). -/
def hostWrite (a v : Byte) (s : State) : State := memWrite s a v

/-- `RD idx`: the host receives the word; nothing of the engine changes (R50, R106). -/
def hostRead (idx : Byte) (s : State) : State := { s with received := s.received ++ [readPort s idx] }

/-- The reset input: the engine's registers and SRF take their reset values (R121); the parameters, the rest of the
schedule and what the host has received are no state of the engine (notes/assumptions/5.md). -/
def platformReset (s : State) : State :=
  { State.resetWith s.config with schedule := s.schedule, received := s.received }

end Sys2Proof.Machine
end

