-- ==== Sys2Proof/Machine/Step.lean ====
section
/-! DEFINITION. One step: the oldest request of the schedule reaches the engine and is served whole (20_memory.md R48,
R51). The engine fetches nothing (R54): a command byte arrives when the host issues it. -/

namespace Sys2Proof.Machine

/-- Serve one request in a state whose schedule no longer holds it. -/
def serve (r : Request) (s : State) : Host.Outcome State Fault Refusal :=
  match r with
  | .reset => .next (platformReset s)
  | .host _ (.write a v) => .next (hostWrite a v s)
  | .host _ (.read idx) => .next (hostRead idx s)
  | .host _ (.command c) => exec (decodeByte c) s

/-- One step. With nothing to arrive the engine waits (R122); a schedule of two hosts is refused (R117). -/
def step (s : State) : Host.Outcome State Fault Refusal :=
  if singleHost s.schedule then
    match s.schedule with
    | [] => .next s
    | r :: rest => serve r { s with schedule := rest }
  else .refused .secondHost

/-- `s` with the command of the table word as the host's next action, issued by the agent that issues the rest of the
schedule (agent 0 where nothing is left). -/
def State.withFetchWord (s : State) (nbits w : Nat) : State :=
  { s with schedule := .host ((issuers s.schedule).headD 0) (.command (commandByte nbits w)) :: s.schedule }

end Sys2Proof.Machine
end

