-- ==== Sys2Proof/Machine/HostProgram.lean ====
section
/-! DEFINITION. Host program text: one line of it as data, the host actions it stands for, and the reading of a line's
characters (30_encoding.md R61, R62). The engine has no control flow, so a program is a straight line of actions (10_state.md R36, 45_control.md R107). -/

namespace Sys2Proof.Machine

/-- One line of host program text (R61), the pseudo-instructions of R62 among them. -/
inductive Line where
  /-- a mnemonic of R57 -/
  | op (i : Instr)
  /-- `.cmd 0xNN` -/
  | cmd (c : Byte)
  /-- `WR 0xAA, 0xVV` -/
  | wr (a v : Byte)
  /-- `RD 0xII` -/
  | rd (idx : Byte)
  /-- `COMPALL` -/
  | compall
  /-- `MEASURE` -/
  | measure
  /-- `WRBURST b0,...,b7` -/
  | wrBurst (b0 b1 b2 b3 b4 b5 b6 b7 : Byte)
  /-- `WR16 0xAA, 0xVVVV` -/
  | wr16 (a : Byte) (v : BitVec 16)
  deriving DecidableEq, Repr

/-- The host actions of a line (R61, R62). -/
def Line.actions : Line → List HostAction
  | .op i => [.command (encode i)]
  | .cmd c => [.command c]
  | .wr a v => [.write a v]
  | .rd idx => [.read idx]
  | .compall => [.command (encode .cmpt), .command (encode .cmpp), .command (encode .cmph)]
  | .measure => [.command (encode .ldraw), .command (encode .cmpt), .command (encode .cmpp), .command (encode .cmph)]
  | .wrBurst b0 b1 b2 b3 b4 b5 b6 b7 =>
    [.write 0xF7#8 b0, .write 0xF8#8 b1, .write 0xF9#8 b2, .write 0xFA#8 b3, .write 0xFB#8 b4, .write 0xFC#8 b5,
     .write 0xFD#8 b6, .write 0xFE#8 b7]
  | .wr16 a v => [.write a (v.extractLsb' 0 8), .write (a + 1#8) (v.extractLsb' 8 8)]

/-- A host program as the schedule of one agent. -/
def scheduleOf (issuer : Nat) (p : List Line) : List Request := (p.flatMap Line.actions).map (.host issuer)

/-! ### Reading a line's characters (R61; notes/assumptions/14.md) -/

/-- The words of a line: blanks and commas part them, `;` starts a comment. `w` is the word read so far. -/
def words : List Char → List Char → List (List Char)
  | [], w => if w = [] then [] else [w]
  | c :: cs, w =>
    if c = ';' then (if w = [] then [] else [w])
    else if c = ' ' ∨ c = '\t' ∨ c = ',' then (if w = [] then words cs [] else w :: words cs [])
    else words cs (w ++ [c])

/-- The digits of a literal by their value (R10). -/
def hexRow : List Char := "0123456789ABCDEF".toList

/-- The number a row of digits writes, a digit being worth its place in `hexRow`; none where one is no digit. -/
def hexValue (ds : List Char) : Option Nat :=
  ds.foldlM (fun n d => (hexRow.idxOf? d.toUpper).map fun k => 16 * n + k) 0

/-- A literal `0x..` that fits `k` bits (R10). -/
def hexLiteral (k : Nat) : List Char → Option (BitVec k)
  | '0' :: 'x' :: d :: ds =>
    match hexValue (d :: ds) with
    | some v => if v < 2 ^ k then some (BitVec.ofNat k v) else none
    | none => none
  | _ => none

/-- The name a line of text starts with. -/
def Line.head : Line → List Char
  | .op .nop => ['N', 'O', 'P']
  | .op .ldcal => ['L', 'D', 'C', 'A', 'L']
  | .op .ldraw => ['L', 'D', 'R', 'A', 'W']
  | .op .cmpt => ['C', 'M', 'P', 'T']
  | .op .cmpp => ['C', 'M', 'P', 'P']
  | .op .cmph => ['C', 'M', 'P', 'H']
  | .op .clrs => ['C', 'L', 'R', 'S']
  | .op (.reserved _) | .cmd _ => ['.', 'c', 'm', 'd']
  | .wr _ _ => ['W', 'R']
  | .rd _ => ['R', 'D']
  | .compall => ['C', 'O', 'M', 'P', 'A', 'L', 'L']
  | .measure => ['M', 'E', 'A', 'S', 'U', 'R', 'E']
  | .wrBurst .. => ['W', 'R', 'B', 'U', 'R', 'S', 'T']
  | .wr16 _ _ => ['W', 'R', '1', '6']

/-- The line of a list of words; none where the words are no line of R61 or R62. -/
def Line.ofWords : List (List Char) → Option Line
  | [m] => [Line.op .nop, .op .ldcal, .op .ldraw, .op .cmpt, .op .cmpp, .op .cmph, .op .clrs, .compall, .measure].find?
      fun l => l.head = m
  | [m, a] =>
    (hexLiteral 8 a).bind fun a =>
      if m = (Line.cmd a).head then some (.cmd a) else if m = (Line.rd a).head then some (.rd a) else none
  | [m, a, v] =>
    (hexLiteral 8 a).bind fun a =>
      if m = ['W', 'R'] then (hexLiteral 8 v).map (.wr a)
      else if m = ['W', 'R', '1', '6'] then (hexLiteral 16 v).map (.wr16 a)
      else none
  | [m, b0, b1, b2, b3, b4, b5, b6, b7] =>
    if m = ['W', 'R', 'B', 'U', 'R', 'S', 'T'] then do
      some (.wrBurst (← hexLiteral 8 b0) (← hexLiteral 8 b1) (← hexLiteral 8 b2) (← hexLiteral 8 b3)
        (← hexLiteral 8 b4) (← hexLiteral 8 b5) (← hexLiteral 8 b6) (← hexLiteral 8 b7))
    else none
  | _ => none

/-- A host program read from its lines of text; a line that holds no word, such as a comment, stands for nothing. -/
def readProgram : List (List Char) → Option (List Line)
  | [] => some []
  | l :: ls =>
    match words l [] with
    | [] => readProgram ls
    | w :: ws => (Line.ofWords (w :: ws)).bind fun x => (readProgram ls).map (x :: ·)

end Sys2Proof.Machine
end

