-- ==== Sys2Proof/Machine/Listing.lean ====
section
/-! DEFINITION. Two second readings of the compensation formulas, which no meaning calls: the vendor's C listings on
32-bit registers that wrap (42_temperature.md R84, 43_pressure.md R95, 44_humidity.md R101; notes/assumptions/11.md), and
the formulas of R80 to R83, R88 to R93 and R97 to R100 in exact integers, with the list of results `s32chk` sees. Claims
compare the meanings with them. -/

namespace Sys2Proof.Machine

/-- A coefficient as the 32-bit register the C listings convert it to. -/
def Calib.word (c : Calib) (k : Coeff) : Word := BitVec.ofInt 32 (c.value k)

/-- The first three lines of R84. -/
def vendorFine (adcT : Word) (c : Calib) : Word :=
  let digT1 := c.word .t1
  let var1 := (((adcT.sshiftRight 3) - (digT1 <<< 1)) * c.word .t2).sshiftRight 11
  let var2 := (((((adcT.sshiftRight 4) - digT1) * ((adcT.sshiftRight 4) - digT1)).sshiftRight 12) *
    c.word .t3).sshiftRight 14
  var1 + var2

/-- The last line of R84, with the division of R83 for the other `T_DIV_MODE`. -/
def vendorTemp (mode : TDivMode) (tFine : Word) : Word :=
  match mode with
  | .shift => (tFine * 5#32 + 128#32).sshiftRight 8
  | .trunc => (tFine * 5#32 + 128#32).sdiv 256#32

/-- var1 of R95 up to the test against 0. -/
def vendorPressDivisor (tFine : Word) (c : Calib) : Word :=
  let var1 := (tFine.sshiftRight 1) - 64000#32
  let var1 := (((c.word .p3 * ((var1.sshiftRight 2 * var1.sshiftRight 2).sshiftRight 13)).sshiftRight 3) +
    ((c.word .p2 * var1).sshiftRight 1)).sshiftRight 18
  ((32768#32 + var1) * c.word .p1).sshiftRight 15

/-- var2 of R95 up to the test against 0. -/
def vendorPressOffset (tFine : Word) (c : Calib) : Word :=
  let var1 := (tFine.sshiftRight 1) - 64000#32
  let var2 := ((var1.sshiftRight 2 * var1.sshiftRight 2).sshiftRight 11) * c.word .p6
  let var2 := var2 + ((var1 * c.word .p5) <<< 1)
  (var2.sshiftRight 2) + (c.word .p4 <<< 16)

/-- The routine of R95. -/
def vendorPressure (tFine adcP : Word) (c : Calib) : Word :=
  let var1 := vendorPressDivisor tFine c
  let var2 := vendorPressOffset tFine c
  if var1 = 0#32 then 0#32
  else
    let p := ((1048576#32 - adcP) - var2.sshiftRight 12) * 3125#32
    let p := if p < 0x80000000#32 then (p <<< 1) / var1 else (p / var1) * 2#32
    let var1 := (c.word .p9 * (((p >>> 3) * (p >>> 3)) >>> 13)).sshiftRight 12
    let var2 := ((p >>> 2) * c.word .p8).sshiftRight 13
    p + (var1 + var2 + c.word .p7).sshiftRight 4

/-- The routine of R101. -/
def vendorHumidity (tFine adcH : Word) (c : Calib) : Word :=
  let v := tFine - 76800#32
  let v := (((((adcH <<< 14) - (c.word .h4 <<< 20)) - c.word .h5 * v) + 16384#32).sshiftRight 15) *
    ((((((((v * c.word .h6).sshiftRight 10) * (((v * c.word .h3).sshiftRight 11) + 32768#32)).sshiftRight 10) +
      2097152#32) * c.word .h2) + 8192#32).sshiftRight 14)
  let v := v - (((v.sshiftRight 15 * v.sshiftRight 15).sshiftRight 7) * c.word .h1).sshiftRight 4
  let v := if v.slt 0#32 then 0#32 else v
  let v := if (419430400#32).slt v then 419430400#32 else v
  v.sshiftRight 12

/-- Every number of a list lies in s32. -/
abbrev allS32 (l : List Int) : Prop := ∀ r ∈ l, inS32 r

/-- t_fine in exact integers (R80, R81, R82). -/
def exactFine (adcT t1 t2 t3 : Int) : Int :=
  (adcT / 8 - 2 * t1) * t2 / 2048 + (adcT / 16 - t1) * (adcT / 16 - t1) / 4096 * t3 / 16384

/-- The results of R80 to R83 that `s32chk` sees, in exact integers. -/
def exactTempChecked (adcT t1 t2 t3 : Int) : List Int :=
  let a := adcT / 8 - 2 * t1
  let b := adcT / 16 - t1
  let tf := exactFine adcT t1 t2 t3
  [2 * t1, a, a * t2, b, b * b, b * b / 4096 * t3, tf, 5 * tf, 5 * tf + 128]

/-- The numbers of the two stages of R88 and R89 and the pressure of R91 and R93, in exact integers but for the
modulo-2^32 arithmetic of R91 and R93. -/
structure ExactPressure where
  /-- v1 of the first line of R89 -/
  slope   : Int
  /-- v1 of the second line of R89, the divisor -/
  divisor : Int
  /-- P_OUT, none on the guard path (R90) -/
  value   : Option Nat
  /-- the results that `s32chk` sees -/
  checked : List Int

/-- See `ExactPressure`. -/
def exactPressure (tf adcP p1 p2 p3 p4 p5 p6 p7 p8 p9 : Int) : ExactPressure :=
  let v := tf / 2 - 64000
  let q := v / 4
  let o := q * q / 2048 * p6 + 2 * (v * p5)
  let off := o / 4 + 65536 * p4
  let sum := p3 * (q * q / 8192) / 8 + p2 * v / 2
  let slope := sum / 262144
  let divisor := (32768 + slope) * p1 / 32768
  let before := [v, q * q, q * q / 2048 * p6, v * p5, 2 * (v * p5), o, 65536 * p4, off, p3 * (q * q / 8192), p2 * v, sum,
    32768 + slope, (32768 + slope) * p1]
  if divisor = 0 then { slope := slope, divisor := divisor, value := none, checked := before }
  else
    let p := ((1048576 - adcP - off / 4096) * 3125) % 4294967296
    let d := divisor % 4294967296
    let p := if p < 2147483648 then 2 * p / d else 2 * (p / d) % 4294967296
    let s := if p < 2147483648 then p else p - 4294967296
    let x := p9 * ((p / 8) * (p / 8) % 4294967296 / 8192)
    let y := p / 4 * p8
    let corr := x / 4096 + y / 8192
    { slope := slope
      divisor := divisor
      value := some ((s + (corr + p7) / 16) % 4294967296).toNat
      checked := before ++ [1048576 - adcP, x, y, corr, corr + p7, s + (corr + p7) / 16] }

/-- H_OUT and the results that `s32chk` sees in R97 and R98, in exact integers. -/
structure ExactHumidity where
  /-- v before the clamp (R98) -/
  unclamped : Int
  /-- the results that `s32chk` sees -/
  checked   : List Int

/-- See `ExactHumidity`. -/
def exactHumidity (tf adcH h1 h2 h3 h4 h5 h6 : Int) : ExactHumidity :=
  let v := tf - 76800
  let s := 16384 * adcH - 1048576 * h4
  let a := (s - h5 * v + 16384) / 32768
  let c := v * h3 / 2048 + 32768
  let e := v * h6 / 1024 * c
  let f := e / 1024 + 2097152
  let b := (f * h2 + 8192) / 16384
  let w := a * b / 32768
  let k := w * w / 128 * h1
  { unclamped := a * b - k / 16
    checked := [v, 16384 * adcH, 1048576 * h4, s, h5 * v, s - h5 * v, s - h5 * v + 16384, v * h6, v * h3, c, e, f, f * h2,
      f * h2 + 8192, a * b, w * w, k, a * b - k / 16] }

end Sys2Proof.Machine
end

