-- ==== Sys2Proof/Safety.lean ====
section
/-! DEFINITION. The terms claims are stated in: the invariant of the engine, answers and their composition, which
STATUS fields a command may change, which SRF cells no command reads, and the conceptual states of
70_reset_and_hazards.md R131. -/

namespace Sys2Proof.Machine

/-- The next state an answer holds, if it is one. -/
def nextOf : Answer → Option State
  | .next t => some t
  | .fault _ => none
  | .refused _ => none

/-- The fault an answer holds, if it is one. -/
def faultOf : Answer → Option Fault
  | .next _ => none
  | .fault f => some f
  | .refused _ => none

/-- The refusal an answer holds, if it is one. -/
def refusalOf : Answer → Option Refusal
  | .next _ => none
  | .fault _ => none
  | .refused r => some r

/-- Go on with `k` from a next state; a stop stays the stop it is (R14). -/
def andThen (a : Answer) (k : State → Answer) : Answer :=
  match a with
  | .next t => k t
  | .fault f => .fault f
  | .refused r => .refused r

/-- `s` with another `OVF_POLICY`. -/
def withPolicy (s : State) (p : OvfPolicy) : State := { s with config := { s.config with ovfPolicy := p } }

/-- `s` with another `T_DIV_MODE`. -/
def withDivMode (s : State) (m : TDivMode) : State := { s with config := { s.config with tDivMode := m } }

/-- A value in the range of a 12-bit signed field (R19). -/
abbrev inS12 (v : Int) : Prop := -2048 ≤ v ∧ v ≤ 2047

/-- What every state of the engine satisfies: the SRF is canonical (R40), the reserved STATUS bits read 0 (R35), H4 and
H5 hold 12-bit values (R19), H_OUT is at most 102400 (R24), and PFAIL = 1 comes with P_OUT = 0 (R23, R29). -/
structure Inv (s : State) : Prop where
  srf      : s.srf.wf
  reserved : ∀ k, 9 ≤ k → s.status.getLsbD k = false
  h4       : inS12 s.calib.h4.toInt
  h5       : inS12 s.calib.h5.toInt
  hOut     : s.hOut.toNat ≤ 102400
  pfail    : s.flag .pfail = true → s.pOut = 0#32

/-- A request that issues a command byte of `i`. -/
def issues (r : Request) (i : Instr) : Prop := ∃ k c, r = .host k (.command c) ∧ decodeByte c = i

/-- The table of R25: command `i` may bring STATUS field `f` to the value `b`. -/
def mayBring (i : Instr) (f : Flag) (b : Bool) : Bool :=
  match i, f, b with
  | .ldcal, .calv, true => true
  | .ldcal, .tfv, false => true
  | .ldraw, .rawv, true => true
  | .ldraw, .tfv, false => true
  | .cmpt, .tfv, true => true
  | .cmpt, .nocal, true => true
  | .cmpt, .noraw, true => true
  | .cmpt, .ovf, true => true
  | .cmpp, .pfail, _ => true
  | .cmpp, .ord, true => true
  | .cmpp, .nocal, true => true
  | .cmpp, .noraw, true => true
  | .cmpp, .ovf, true => true
  | .cmph, .ord, true => true
  | .cmph, .nocal, true => true
  | .cmph, .noraw, true => true
  | .cmph, .ovf, true => true
  | .clrs, f, false => f.sticky
  | .reserved _, .ill, true => true
  | _, _, _ => false

/-- An SRF address no command reads (R42, R43). -/
def unread (a : Byte) : Bool :=
  !((0x88#8 ≤ a && a ≤ 0x9F#8) || a == 0xA1#8 || (0xE1#8 ≤ a && a ≤ 0xE7#8) || (0xF7#8 ≤ a && a ≤ 0xFE#8))

/-- The results of CMPT in state `s` that `s32chk` sees, in exact integers. -/
def tempChecked (s : State) : List Int :=
  exactTempChecked s.adcT.toNat (s.calib.value .t1) (s.calib.value .t2) (s.calib.value .t3)

/-- The exact t_fine of CMPT in state `s`. -/
def tempFine (s : State) : Int :=
  exactFine s.adcT.toNat (s.calib.value .t1) (s.calib.value .t2) (s.calib.value .t3)

/-- CMPP in state `s`, in exact integers. -/
def pressExact (s : State) : ExactPressure :=
  exactPressure s.tFine.toInt s.adcP.toNat (s.calib.value .p1) (s.calib.value .p2) (s.calib.value .p3)
    (s.calib.value .p4) (s.calib.value .p5) (s.calib.value .p6) (s.calib.value .p7) (s.calib.value .p8)
    (s.calib.value .p9)

/-- CMPH in state `s`, in exact integers. -/
def humExact (s : State) : ExactHumidity :=
  exactHumidity s.tFine.toInt s.adcH.toNat (s.calib.value .h1) (s.calib.value .h2) (s.calib.value .h3)
    (s.calib.value .h4) (s.calib.value .h5) (s.calib.value .h6)

/-- `t` differs from `s` in T_FINE, T_OUT and STATUS fields at most. -/
def onlyTemp (s t : State) : Prop :=
  t = { s with tFine := t.tFine, tOut := t.tOut, status := t.status } ∧
  ∀ k, 9 ≤ k → t.status.getLsbD k = s.status.getLsbD k

/-- `t` differs from `s` in P_OUT and STATUS fields at most. -/
def onlyPress (s t : State) : Prop :=
  t = { s with pOut := t.pOut, status := t.status } ∧ ∀ k, 9 ≤ k → t.status.getLsbD k = s.status.getLsbD k

/-- `t` differs from `s` in H_OUT and STATUS fields at most. -/
def onlyHum (s t : State) : Prop :=
  t = { s with hOut := t.hOut, status := t.status } ∧ ∀ k, 9 ≤ k → t.status.getLsbD k = s.status.getLsbD k

/-- The conceptual states of the source as far as the engine has them (R131). -/
inductive Phase where
  /-- Uninitialized or Discovered: CALV = 0, whatever RAWV is -/
  | unconfigured
  /-- Configured, Ready: CALV = 1, RAWV = 0 -/
  | ready
  /-- Sampled: CALV = 1, RAWV = 1, CMPT still to run -/
  | sampled
  /-- Sampled, with T_FINE of this sample: CALV = 1, RAWV = 1, TFV = 1 -/
  | compensated
  deriving DecidableEq, Repr

/-- The conceptual state an engine is in (R131, notes/assumptions/15.md). An engine with CALV = 0 and RAWV = 1 (an LDRAW
before any LDCAL) meets two lines of R131, and so does one with CALV = 1 and RAWV = 1; the model takes the first as unconfigured and the
second as sampled, DESIGN CHOICE. -/
def State.phase (s : State) : Phase :=
  if s.flag .calv = false then .unconfigured
  else if s.flag .rawv = false then .ready
  else if s.flag .tfv = false then .sampled
  else .compensated

end Sys2Proof.Machine
end

