-- ==== Sys2Proof/Certificates/Slice0/Obligations.lean ====
section
/-! DEFINITION. The statements about the model, from the numbered rules of the spec. -/

open Sys2Proof Sys2Proof.Machine

/-! ### Encoding and decoding -/

/-- R56 to R59: a stream of well-formed commands decodes back to the same commands, one byte each, and a command is
read off the head of any stream without looking past its byte. -/
def Obligations.CommandStreamRoundTrip : Prop :=
  (∀ is : List Instr, (∀ i ∈ is, i.wf = true) →
    decodeStream (encodeStream is) = is ∧ (encodeStream is).length = is.length) ∧
  (∀ (i : Instr) (rest : List Byte), i.wf = true → decode (encode i :: rest) = .ok (i, rest))

/-- The other direction: any byte stream is the encoding of the commands it decodes to, all of them well-formed. -/
def Obligations.ByteStreamsAreCommandStreams : Prop :=
  ∀ bs : List Byte, encodeStream (decodeStream bs) = bs ∧ ∀ i ∈ decodeStream bs, i.wf = true

/-- R59: every byte value decodes to exactly one command, the one of the decode table. -/
def Obligations.EveryByteDecodesAsTabled : Prop :=
  ∀ c : Byte,
    (c.toNat / 16 ≠ 0 → decodeByte c = .reserved c) ∧
    (c.toNat / 16 = 0 → decodeByte c =
      if c.toNat % 16 = 0 then .nop else if c.toNat % 16 = 1 then .ldcal else if c.toNat % 16 = 2 then .ldraw
      else if c.toNat % 16 = 3 then .cmpt else if c.toNat % 16 = 4 then .cmpp else if c.toNat % 16 = 5 then .cmph
      else if c.toNat % 16 = 6 then .clrs else .reserved c)

/-- Words of the opcode table, bit by bit, read by the table-word decoder. -/
def Obligations.TableWordsDecode : Prop :=
  decodeTableWord 8 0b00000000 = some .nop ∧ decodeTableWord 8 0b00000001 = some .ldcal ∧
  decodeTableWord 8 0b00000011 = some .cmpt ∧ decodeTableWord 8 0b00000110 = some .clrs ∧
  decodeTableWord 8 0b00010011 = some (.reserved 0x13#8)

/-! ### Steps -/

/-- A step runs the decoded command: when the oldest request of a one-host schedule is a command byte that decodes to
`i`, the step is `exec i` in the state whose schedule no longer holds that request. -/
def Obligations.StepRunsTheIssuedCommand : Prop :=
  ∀ (s : State) (k : Nat) (c : Byte) (rest : List Request) (i : Instr),
    s.schedule = .host k (.command c) :: rest → singleHost s.schedule = true → decode [c] = .ok (i, []) →
    step s = exec i { s with schedule := rest }

/-- The model's choice (notes/assumptions/2.md) of R122's "waits": with nothing scheduled a step changes nothing. -/
def Obligations.StepWaitsWhenNothingArrives : Prop :=
  ∀ s : State, s.schedule = [] → step s = .next s

/-- R17, R117: a step is refused exactly when two agents issue actions in the schedule, and then as `secondHost`. -/
def Obligations.TwoHostsAreRefused : Prop :=
  (∀ (s : State) (j k : Nat) (a b : HostAction), .host j a ∈ s.schedule → .host k b ∈ s.schedule → j ≠ k →
    step s = .refused .secondHost) ∧
  (∀ (s : State) (r : Refusal), step s = .refused r →
    r = .secondHost ∧ ∃ j k a b, .host j a ∈ s.schedule ∧ .host k b ∈ s.schedule ∧ j ≠ k)

/-- R40, R44, R50: a host write puts its byte in the addressed cell and changes nothing else of the engine. -/
def Obligations.HostWriteChangesOnlyItsCell : Prop :=
  ∀ (s : State) (k : Nat) (a v : Byte) (rest : List Request),
    s.srf.wf → s.schedule = .host k (.write a v) :: rest → singleHost s.schedule = true →
    ∃ t, step s = .next t ∧ srfByte t a = v ∧ (∀ b, b ≠ a → srfByte t b = srfByte s b) ∧ t.srf.wf ∧
      t = { s with srf := t.srf, schedule := rest }

/-- R39, R106: what the read port answers at each index. -/
def Obligations.ReadPortAnswersAsTabled : Prop :=
  ∀ s : State,
    readPort s 0x00#8 = s.status ∧ readPort s 0x01#8 = s.tOut ∧ readPort s 0x02#8 = s.pOut ∧
    readPort s 0x03#8 = s.hOut ∧ readPort s 0x04#8 = s.tFine ∧ readPort s 0x05#8 = s.adcT.setWidth 32 ∧
    readPort s 0x06#8 = s.adcP.setWidth 32 ∧ readPort s 0x07#8 = s.adcH.setWidth 32 ∧
    readPort s 0x10#8 = s.calib.t1.setWidth 32 ∧ readPort s 0x11#8 = s.calib.t2.signExtend 32 ∧
    readPort s 0x12#8 = s.calib.t3.signExtend 32 ∧ readPort s 0x13#8 = s.calib.p1.setWidth 32 ∧
    readPort s 0x14#8 = s.calib.p2.signExtend 32 ∧ readPort s 0x15#8 = s.calib.p3.signExtend 32 ∧
    readPort s 0x16#8 = s.calib.p4.signExtend 32 ∧ readPort s 0x17#8 = s.calib.p5.signExtend 32 ∧
    readPort s 0x18#8 = s.calib.p6.signExtend 32 ∧ readPort s 0x19#8 = s.calib.p7.signExtend 32 ∧
    readPort s 0x1A#8 = s.calib.p8.signExtend 32 ∧ readPort s 0x1B#8 = s.calib.p9.signExtend 32 ∧
    readPort s 0x1C#8 = s.calib.h1.setWidth 32 ∧ readPort s 0x1D#8 = s.calib.h2.signExtend 32 ∧
    readPort s 0x1E#8 = s.calib.h3.setWidth 32 ∧ readPort s 0x1F#8 = s.calib.h4.signExtend 32 ∧
    readPort s 0x20#8 = s.calib.h5.signExtend 32 ∧ readPort s 0x21#8 = s.calib.h6.signExtend 32 ∧
    ∀ idx : Byte, (0x08 ≤ idx.toNat ∧ idx.toNat ≤ 0x0F) ∨ 0x22 ≤ idx.toNat → readPort s idx = 0x00000000#32

/-- R50, R106: a result read, whatever follows it, hands the host the word of the index and changes nothing of the engine,
so a second read of the same index hands it the same word. The schedule and the host's log are the model's own
(notes/assumptions/2.md, notes/assumptions/3.md). -/
def Obligations.ResultReadHasNoSideEffect : Prop :=
  (∀ (s : State) (k : Nat) (idx : Byte) (rest : List Request),
    s.schedule = .host k (.read idx) :: rest → singleHost s.schedule = true →
    step s = .next { s with schedule := rest, received := s.received ++ [readPort s idx] }) ∧
  ∀ (s : State) (k : Nat) (idx : Byte) (rest : List Request),
    s.schedule = .host k (.read idx) :: .host k (.read idx) :: rest → singleHost s.schedule = true →
    Sys2Proof.core.run 2 s =
      .next { s with schedule := rest, received := s.received ++ [readPort s idx, readPort s idx] }

/-- Every step that goes on takes one request off the schedule, keeps the parameters, and takes nothing back from the
host; the schedule and the host's log are the model's own (notes/assumptions/2.md, notes/assumptions/3.md). -/
def Obligations.StepServesOneRequest : Prop :=
  ∀ s t : State, step s = .next t →
    t.schedule = s.schedule.tail ∧ t.config = s.config ∧ ∃ l : List Word, t.received = s.received ++ l ∧ l.length ≤ 1

/-! ### Reset -/

/-- R121: the value of every piece of engine state after reset. -/
def Obligations.ResetValues : Prop :=
  let s := State.reset
  s.status = 0#32 ∧ (∀ f, s.flag f = false) ∧ s.tOut = 0#32 ∧ s.tFine = 0#32 ∧ s.pOut = 0#32 ∧ s.hOut = 0#32 ∧
  s.adcT = 0#20 ∧ s.adcP = 0#20 ∧ s.adcH = 0#16 ∧ (∀ k, s.calib.value k = 0) ∧ ∀ a, srfByte s a = 0x00#8

/-- The reset input, served as a request of its own (the model's choice, notes/assumptions/5.md), brings every piece of
engine state of any state to its reset value; the parameters, the rest of the schedule and the host's log stay. -/
def Obligations.ResetInputResetsTheEngine : Prop :=
  ∀ (s : State) (rest : List Request), s.schedule = .reset :: rest → singleHost s.schedule = true →
    step s = .next { State.reset with config := s.config, schedule := rest, received := s.received }

/-- R123: each compensation command applied to the reset state, whatever the parameters. -/
def Obligations.CompensationAfterReset : Prop :=
  ∀ c : Config,
    exec .cmpt (State.resetWith c) = .next { State.resetWith c with tFine := 0#32, tOut := 0#32, status := 0x64#32 } ∧
    exec .cmpp (State.resetWith c) = .next { State.resetWith c with pOut := 0#32, status := 0x78#32 } ∧
    exec .cmph (State.resetWith c) = .next { State.resetWith c with hOut := 0#32, status := 0x70#32 }

/-- The state after reset meets the invariant. -/
def Obligations.ResetMeetsInvariant : Prop := ∀ c : Config, Inv (State.resetWith c)

/-- From every state that meets the invariant, a step gives a state that meets it. -/
def Obligations.InvariantKeptByEveryStep : Prop := ∀ s t : State, Inv s → step s = .next t → Inv t

/-! ### Control commands -/

/-- R103: command byte 0x00 is NOP, which changes nothing. -/
def Obligations.NopChangesNothing : Prop := decodeByte 0x00#8 = .nop ∧ ∀ s : State, exec .nop s = .next s

/-- R104: command byte 0x06 is CLRS, which clears bits 4 to 8 of STATUS and changes nothing else; right after reset it
changes nothing. -/
def Obligations.ClrsClearsTheStickyBits : Prop :=
  decodeByte 0x06#8 = .clrs ∧
  (∀ s : State, exec .clrs s = .next { s with status := s.status &&& 0xFFFFFE0F#32 }) ∧
  exec .clrs State.reset = .next State.reset

/-- R34, R58, R105: the reserved bytes are the 249 bytes 0x07..0xFF; each sets ILL and changes nothing else. The last
clause also covers the ill-formed terms `.reserved c` with `c` below 0x07, which no byte decodes to; that they set ILL too
is the model's choice (notes/assumptions/8.md). -/
def Obligations.ReservedCommandOnlySetsIll : Prop :=
  (∀ c : Byte, decodeByte c = .reserved c ↔ 0x07 ≤ c.toNat) ∧
  ((List.range 256).filter fun n => decodeByte (BitVec.ofNat 8 n) = .reserved (BitVec.ofNat 8 n)).length = 249 ∧
  (∀ (s : State) (c : Byte), 0x07 ≤ c.toNat →
    exec (decodeByte c) s = .next { s with status := s.status ||| 0x00000100#32 }) ∧
  (∀ (s : State) (c : Byte), exec (.reserved c) s = .next { s with status := s.status ||| 0x00000100#32 })

/-! ### LDCAL and LDRAW -/

/-- R64 to R70: LDCAL's 18 coefficients as bytes of the SRF side by side; CALV = 1, TFV = 0 and nothing else changes. -/
def Obligations.LdcalFusesTheImage : Prop :=
  ∀ s : State, exec .ldcal s = .next { s with
    status := (s.status ||| 0x00000001#32) &&& 0xFFFFFFFB#32
    calib := {
      t1 := srfByte s 0x89#8 ++ srfByte s 0x88#8
      t2 := srfByte s 0x8B#8 ++ srfByte s 0x8A#8
      t3 := srfByte s 0x8D#8 ++ srfByte s 0x8C#8
      p1 := srfByte s 0x8F#8 ++ srfByte s 0x8E#8
      p2 := srfByte s 0x91#8 ++ srfByte s 0x90#8
      p3 := srfByte s 0x93#8 ++ srfByte s 0x92#8
      p4 := srfByte s 0x95#8 ++ srfByte s 0x94#8
      p5 := srfByte s 0x97#8 ++ srfByte s 0x96#8
      p6 := srfByte s 0x99#8 ++ srfByte s 0x98#8
      p7 := srfByte s 0x9B#8 ++ srfByte s 0x9A#8
      p8 := srfByte s 0x9D#8 ++ srfByte s 0x9C#8
      p9 := srfByte s 0x9F#8 ++ srfByte s 0x9E#8
      h1 := srfByte s 0xA1#8
      h2 := srfByte s 0xE2#8 ++ srfByte s 0xE1#8
      h3 := srfByte s 0xE3#8
      h4 := (srfByte s 0xE4#8 ++ (srfByte s 0xE5#8).extractLsb' 0 4 : BitVec 12).signExtend 16
      h5 := (srfByte s 0xE6#8 ++ (srfByte s 0xE5#8).extractLsb' 4 4 : BitVec 12).signExtend 16
      h6 := srfByte s 0xE7#8 } }

/-- R75 to R77: LDRAW's readings as bits of the burst side by side; RAWV = 1, TFV = 0 and nothing else changes. -/
def Obligations.LdrawAssemblesTheBurst : Prop :=
  ∀ s : State, exec .ldraw s = .next { s with
    status := (s.status ||| 0x00000002#32) &&& 0xFFFFFFFB#32
    adcP := srfByte s 0xF7#8 ++ srfByte s 0xF8#8 ++ (srfByte s 0xF9#8).extractLsb' 4 4
    adcT := srfByte s 0xFA#8 ++ srfByte s 0xFB#8 ++ (srfByte s 0xFC#8).extractLsb' 4 4
    adcH := srfByte s 0xFD#8 ++ srfByte s 0xFE#8 }

/-- R72: repeating LDCAL on an unchanged image gives the same state, and a blank image (0x00 in every cell LDCAL reads,
whatever the other cells hold) gives coefficients 0 with CALV set, on which a CMPP reports degenerate calibration whatever
t_fine it holds, unless it faults on an overflow. -/
def Obligations.LdcalCornerCases : Prop :=
  (∀ s t : State, exec .ldcal s = .next t → exec .ldcal t = .next t) ∧
  (∀ s : State,
    (∀ a : Byte, (0x88#8 ≤ a ∧ a ≤ 0x9F#8) ∨ a = 0xA1#8 ∨ (0xE1#8 ≤ a ∧ a ≤ 0xE7#8) → srfByte s a = 0x00#8) →
    ∃ t, exec .ldcal s = .next t ∧ (∀ k, t.calib.value k = 0) ∧ t.flag .calv = true ∧
      (exec .cmpp t = .fault .overflow ∨ ∃ u, exec .cmpp t = .next u ∧ u.flag .pfail = true ∧ u.pOut = 0#32))

/-- R43, R44: a host write to a cell no command reads, 0xA0 among them, changes that cell and no command's effect: the
write before the command and the write after it end in the same answer. -/
def Obligations.UnreadCellsNeverMatter : Prop :=
  unread 0xA0#8 = true ∧ unread 0xD0#8 = true ∧
  ∀ (i : Instr) (s : State) (a v : Byte), unread a = true →
    exec i (hostWrite a v s) = andThen (exec i s) fun t => .next (hostWrite a v t)

/-! ### CMPT -/

/-- R80 to R83: absent overflow, CMPT answers under either policy, with T_FINE and T_OUT the exact integers of the
formula; TFV = 1, NOCAL and NORAW are ORed in, and nothing else changes. -/
def Obligations.CmptResultAbsentOverflow : Prop :=
  ∀ s : State, allS32 (tempChecked s) →
    ∃ t, exec .cmpt s = .next t ∧ onlyTemp s t ∧
      t.tFine.toInt = tempFine s ∧
      t.tOut.toInt =
        (match s.config.tDivMode with
        | .shift => (5 * tempFine s + 128) / 256
        | .trunc => if 0 ≤ 5 * tempFine s + 128 then (5 * tempFine s + 128) / 256
            else -(-(5 * tempFine s + 128) / 256)) ∧
      t.flag .tfv = true ∧ t.flag .nocal = (s.flag .nocal || !s.flag .calv) ∧
      t.flag .noraw = (s.flag .noraw || !s.flag .rawv) ∧
      ∀ f, f ≠ .tfv → f ≠ .nocal → f ≠ .noraw → t.flag f = s.flag f

/-- R12, R14, R33, R85: where an exact result of CMPT leaves s32, CMPT faults under FAULT and otherwise completes with
OVF = 1 and TFV = 1. -/
def Obligations.CmptOverflowOutcome : Prop :=
  ∀ s : State, ¬ allS32 (tempChecked s) →
    (s.config.ovfPolicy = .fault → exec .cmpt s = .fault .overflow) ∧
    (s.config.ovfPolicy = .wrapFlag →
      ∃ t, exec .cmpt s = .next t ∧ onlyTemp s t ∧ t.flag .ovf = true ∧ t.flag .tfv = true)

/-- R84 under WRAP_FLAG, for every input: CMPT leaves in T_FINE and T_OUT what the vendor's C routine computes on 32-bit
registers that wrap. The listing is the spec's general knowledge and wrapping C arithmetic is presumed
(notes/assumptions/11.md). -/
def Obligations.CmptMatchesVendorListing : Prop :=
  ∀ s : State, s.config.ovfPolicy = .wrapFlag →
    ∃ t, exec .cmpt s = .next t ∧ onlyTemp s t ∧
      t.tFine = vendorFine (s.adcT.setWidth 32) s.calib ∧ t.tOut = vendorTemp s.config.tDivMode t.tFine

/-- R86: T_FINE and T_OUT after CMPT are a function of ADC_T, T1, T2, T3 and T_DIV_MODE. -/
def Obligations.CmptIsAPureFunction : Prop :=
  ∀ s s' t t' : State, s.adcT = s'.adcT → s.calib.t1 = s'.calib.t1 → s.calib.t2 = s'.calib.t2 →
    s.calib.t3 = s'.calib.t3 → s.config.tDivMode = s'.config.tDivMode →
    exec .cmpt s = .next t → exec .cmpt s' = .next t' → t.tFine = t'.tFine ∧ t.tOut = t'.tOut

/-- R7: T_DIV_MODE selects how T_OUT comes from t_fine*5 + 128: SHIFT takes the floor of the quotient by 256 and TRUNC
rounds it toward zero. Both give the same T_FINE and STATUS, or both fault, and T_OUT differs only when the number is
negative and not a multiple of 256; the default is SHIFT. -/
def Obligations.DivisionModeSelectsTheRounding : Prop :=
  State.reset.config.tDivMode = .shift ∧
  ∀ s : State,
    (∃ t u, exec .cmpt (withDivMode s .shift) = .next t ∧ exec .cmpt (withDivMode s .trunc) = .next u ∧
      t.tFine = u.tFine ∧ t.status = u.status ∧
      let num := (t.tFine * 5#32 + 128#32).toInt
      t.tOut.toInt = ⌊(num : ℚ) / 256⌋ ∧
      u.tOut.toInt = (if 0 ≤ num then ⌊(num : ℚ) / 256⌋ else ⌈(num : ℚ) / 256⌉) ∧
      (t.tOut ≠ u.tOut → num < 0 ∧ ¬ 256 ∣ num)) ∨
    (s.config.ovfPolicy = .fault ∧ exec .cmpt (withDivMode s .shift) = .fault .overflow ∧
      exec .cmpt (withDivMode s .trunc) = .fault .overflow)

/-! ### CMPP -/

/-- R88 to R93: absent overflow, CMPP answers under either policy, with P_OUT and PFAIL those of the formula; ORD, NOCAL
and NORAW are ORed in, and nothing else changes. -/
def Obligations.CmppResultAbsentOverflow : Prop :=
  ∀ s : State, allS32 (pressExact s).checked →
    ∃ t, exec .cmpp s = .next t ∧ onlyPress s t ∧
      t.pOut.toNat = (pressExact s).value.getD 0 ∧ t.flag .pfail = (pressExact s).value.isNone ∧
      t.flag .ord = (s.flag .ord || !s.flag .tfv) ∧ t.flag .nocal = (s.flag .nocal || !s.flag .calv) ∧
      t.flag .noraw = (s.flag .noraw || !s.flag .rawv) ∧
      ∀ f, f ≠ .pfail → f ≠ .ord → f ≠ .nocal → f ≠ .noraw → t.flag f = s.flag f

/-- R12, R14, R33, R96: where an exact result of CMPP leaves s32, CMPP faults under FAULT and otherwise completes with
OVF = 1. -/
def Obligations.CmppOverflowOutcome : Prop :=
  ∀ s : State, ¬ allS32 (pressExact s).checked →
    (s.config.ovfPolicy = .fault → exec .cmpp s = .fault .overflow) ∧
    (s.config.ovfPolicy = .wrapFlag → ∃ t, exec .cmpp s = .next t ∧ onlyPress s t ∧ t.flag .ovf = true)

/-- R95 under WRAP_FLAG, for every input: CMPP leaves in P_OUT what the vendor's C routine returns, and PFAIL tells
whether its var1 was 0 (notes/assumptions/11.md). -/
def Obligations.CmppMatchesVendorListing : Prop :=
  ∀ s : State, s.config.ovfPolicy = .wrapFlag →
    ∃ t, exec .cmpp s = .next t ∧ onlyPress s t ∧
      t.pOut = vendorPressure s.tFine (s.adcP.setWidth 32) s.calib ∧
      t.flag .pfail = decide (vendorPressDivisor s.tFine s.calib = 0#32)

/-- R90: absent overflow the first-line v1 lies in [-5120, 5119], the divisor is never negative, and PFAIL is set exactly when P1 = 0, or P1 = 1 and the first-line v1 is negative; P_OUT is then 0. -/
def Obligations.DegenerateGuardFiresExactly : Prop :=
  ∀ s : State, allS32 (pressExact s).checked →
    (-5120 ≤ (pressExact s).slope ∧ (pressExact s).slope ≤ 5119) ∧ 0 ≤ (pressExact s).divisor ∧
    ∃ t, exec .cmpp s = .next t ∧
      (t.flag .pfail = true ↔ s.calib.p1 = 0#16 ∨ (s.calib.p1 = 1#16 ∧ (pressExact s).slope < 0)) ∧
      (t.flag .pfail = true → t.pOut = 0#32)

/-- R13, R92: `as_u32` maps s32 one to one into u32, `as_s32` undoes it, and only 0 is mapped to 0, so the divisor of
R91 is never 0. -/
def Obligations.UnsignedReadingIsOneToOne : Prop :=
  ∀ a : Int, inS32 a →
    asU32 a < 4294967296 ∧ asS32 (asU32 a) = a ∧ (asU32 a = 0 ↔ a = 0) ∧
    ∀ b : Int, inS32 b → asU32 a = asU32 b → a = b

/-- R92: with a negative v1 the first form of the division gives 0 or 1 and the second 0 or 2. -/
def Obligations.NegativeDivisorQuotients : Prop :=
  ∀ (p : Nat) (v : Int), p < 4294967296 → inS32 v → v < 0 →
    (p < 0x80000000 → pressQuotient p (asU32 v) = 0 ∨ pressQuotient p (asU32 v) = 1) ∧
    (0x80000000 ≤ p → pressQuotient p (asU32 v) = 0 ∨ pressQuotient p (asU32 v) = 2)

/-- R91, R96: for a difference d up to 1374389, where `umul(d, 3125)` does not wrap, the division of R91 takes its first
form for d below 687195 and its second form from there on. The forms are written out as numbers: the quotient of the doubled
product, and the doubled quotient modulo 2^32. -/
def Obligations.DivisionBranchBoundary : Prop :=
  ∀ d v : Nat, d ≤ 1374389 → 0 < v → v < 4294967296 →
    umul d 3125 = 3125 * d ∧
    (d < 687195 → pressQuotient (umul d 3125) v = 2 * (3125 * d) / v) ∧
    (687195 ≤ d → pressQuotient (umul d 3125) v = 2 * (3125 * d / v) % 4294967296)

/-! ### CMPH -/

/-- R97 to R100: absent overflow, CMPH answers under either policy, with H_OUT the clamped value of the formula; ORD,
NOCAL and NORAW are ORed in, and nothing else changes. -/
def Obligations.CmphResultAbsentOverflow : Prop :=
  ∀ s : State, allS32 (humExact s).checked →
    ∃ t, exec .cmph s = .next t ∧ onlyHum s t ∧
      (t.hOut.toNat : Int) =
        (if (humExact s).unclamped < 0 then 0 else if 419430400 < (humExact s).unclamped then 102400
        else (humExact s).unclamped / 4096) ∧
      t.flag .ord = (s.flag .ord || !s.flag .tfv) ∧ t.flag .nocal = (s.flag .nocal || !s.flag .calv) ∧
      t.flag .noraw = (s.flag .noraw || !s.flag .rawv) ∧
      ∀ f, f ≠ .ord → f ≠ .nocal → f ≠ .noraw → t.flag f = s.flag f

/-- R12, R14, R33, R102: where an exact result of CMPH leaves s32, CMPH faults under FAULT and otherwise completes with
OVF = 1. -/
def Obligations.CmphOverflowOutcome : Prop :=
  ∀ s : State, ¬ allS32 (humExact s).checked →
    (s.config.ovfPolicy = .fault → exec .cmph s = .fault .overflow) ∧
    (s.config.ovfPolicy = .wrapFlag → ∃ t, exec .cmph s = .next t ∧ onlyHum s t ∧ t.flag .ovf = true)

/-- R101 under WRAP_FLAG, for every input: CMPH leaves in H_OUT what the vendor's C routine returns
(notes/assumptions/11.md). -/
def Obligations.CmphMatchesVendorListing : Prop :=
  ∀ s : State, s.config.ovfPolicy = .wrapFlag →
    ∃ t, exec .cmph s = .next t ∧ onlyHum s t ∧
      t.hOut = vendorHumidity s.tFine (s.adcH.setWidth 32) s.calib

/-- R24, R99, R100, R121: whatever the inputs, overflow included, H_OUT after a CMPH lies in 0..102400, and a step that
changes H_OUT serves a CMPH, or the reset input, which brings it to 0. That the reset input is served as a request of its
own is the model's choice (notes/assumptions/5.md). -/
def Obligations.HumidityStaysInRange : Prop :=
  (∀ s t : State, exec .cmph s = .next t → t.hOut.toNat ≤ 102400) ∧
  ∀ s t : State, step s = .next t → t.hOut ≠ s.hOut →
    ∃ r rest, s.schedule = r :: rest ∧ ((r = .reset ∧ t.hOut = 0#32) ∨ issues r .cmph)

/-! ### Errors and STATUS -/

/-- R14: under WRAP_FLAG every command answers a next state; a command never stops for another reason than
`Fault(Overflow)` under FAULT; and after a fault no later step is taken. -/
def Obligations.OnlyOverflowUnderFaultStopsACommand : Prop :=
  (∀ (i : Instr) (s : State), s.config.ovfPolicy = .wrapFlag → ∃ t, exec i s = .next t) ∧
  (∀ (i : Instr) (s : State), (∃ t, exec i s = .next t) ∨ (exec i s = .fault .overflow ∧ s.config.ovfPolicy = .fault)) ∧
  ∀ (n : Nat) (s : State) (f : Fault), step s = .fault f → Sys2Proof.core.run (n + 1) s = .fault f

/-- R8, R12, R14, R16, R33, R113: the two policies agree but on overflow. From a state with OVF = 0, a command under
FAULT faults exactly when the same command under WRAP_FLAG sets OVF, and otherwise answers the same state; the default is
WRAP_FLAG. -/
def Obligations.PoliciesDifferOnlyOnOverflow : Prop :=
  State.reset.config.ovfPolicy = .wrapFlag ∧
  ∀ (i : Instr) (s : State), s.flag .ovf = false →
    ∃ t, exec i (withPolicy s .wrapFlag) = .next t ∧
      (t.flag .ovf = true → exec i (withPolicy s .fault) = .fault .overflow) ∧
      (t.flag .ovf = false → exec i (withPolicy s .fault) = .next (withPolicy t .fault))

/-- R33: under FAULT no step sets OVF. -/
def Obligations.OvfIsNeverSetUnderFault : Prop :=
  ∀ s t : State, s.config.ovfPolicy = .fault → s.flag .ovf = false → step s = .next t → t.flag .ovf = false

/-- R30: a CMPP or CMPH that executes with TFV = 0 sets ORD and computes with the held T_FINE: whenever the same
command completes with TFV = 1, it completes with TFV = 0 and the same result; under WRAP_FLAG it always completes. -/
def Obligations.StaleFineTemperatureSetsOrd : Prop :=
  ∀ (i : Instr) (s : State), i = .cmpp ∨ i = .cmph → s.flag .tfv = false →
    (s.config.ovfPolicy = .wrapFlag → ∃ u, exec i { s with status := putFlag .tfv true s.status } = .next u) ∧
    ∀ u, exec i { s with status := putFlag .tfv true s.status } = .next u →
      ∃ t, exec i s = .next t ∧ t.flag .ord = true ∧ t.tFine = s.tFine ∧ t.pOut = u.pOut ∧ t.hOut = u.hOut

/-- R31, R32: a compensation command that executes with CALV = 0 sets NOCAL and with RAWV = 0 sets NORAW; it computes
with the held registers: whenever the same command completes with both bits 1, it completes with the same results; under
WRAP_FLAG it always completes. -/
def Obligations.MissingInputsSetNocalAndNoraw : Prop :=
  ∀ (i : Instr) (s : State), i = .cmpt ∨ i = .cmpp ∨ i = .cmph →
    (s.config.ovfPolicy = .wrapFlag →
      ∃ u, exec i { s with status := putFlag .calv true (putFlag .rawv true s.status) } = .next u) ∧
    ∀ u, exec i { s with status := putFlag .calv true (putFlag .rawv true s.status) } = .next u →
      ∃ t, exec i s = .next t ∧
        (s.flag .calv = false → t.flag .nocal = true) ∧ (s.flag .rawv = false → t.flag .noraw = true) ∧
        t.tFine = u.tFine ∧ t.tOut = u.tOut ∧ t.pOut = u.pOut ∧ t.hOut = u.hOut

/-- R25, R29, R35: a command changes a STATUS field only as the table allows, and never a reserved bit. -/
def Obligations.StatusFieldsChangeOnlyAsTabled : Prop :=
  ∀ (i : Instr) (s t : State), exec i s = .next t →
    (∀ f, t.flag f ≠ s.flag f → mayBring i f (t.flag f) = true) ∧
    ∀ k, 9 ≤ k → t.status.getLsbD k = s.status.getLsbD k

/-- R50, R115: a sticky bit that is set stays set through every step but a CLRS command and the reset input. -/
def Obligations.StickyBitsStaySet : Prop :=
  ∀ (s t : State) (f : Flag), f.sticky = true → s.flag f = true → step s = .next t →
    (∀ r ∈ s.schedule.head?, r ≠ .reset ∧ ¬ issues r .clrs) → t.flag f = true

/-- R26, R27, R28: from a state with CALV, RAWV and TFV all 0, as reset leaves them, after any schedule that is served
whole: CALV is 1 exactly when an LDCAL has run since the last reset, RAWV when an LDRAW has, and TFV when a CMPT has run
after the last LDRAW, the last LDCAL and the last reset. -/
def Obligations.ValidityBitsTellWhatHasRun : Prop :=
  ∀ (s t : State) (q : List Request), s.flag .calv = false → s.flag .rawv = false → s.flag .tfv = false →
    Sys2Proof.core.run q.length { s with schedule := q } = .next t →
    (t.flag .calv = true ↔ ∃ q1 r q2, q = q1 ++ r :: q2 ∧ issues r .ldcal ∧ .reset ∉ q2) ∧
    (t.flag .rawv = true ↔ ∃ q1 r q2, q = q1 ++ r :: q2 ∧ issues r .ldraw ∧ .reset ∉ q2) ∧
    (t.flag .tfv = true ↔ ∃ q1 r q2, q = q1 ++ r :: q2 ∧ issues r .cmpt ∧
      ∀ x ∈ q2, x ≠ .reset ∧ ¬ issues x .ldraw ∧ ¬ issues x .ldcal)

/-! ### Whole-machine rules -/

/-- R18, R20 to R24, R40: each register is changed only by the commands R18 names for it, and no command changes the
SRF, the parameters, the schedule or the host's log. -/
def Obligations.EachRegisterHasItsWriters : Prop :=
  ∀ (i : Instr) (s t : State), exec i s = .next t →
    (t.status ≠ s.status → i ≠ .nop) ∧ (t.tOut ≠ s.tOut → i = .cmpt) ∧ (t.tFine ≠ s.tFine → i = .cmpt) ∧
    (t.pOut ≠ s.pOut → i = .cmpp) ∧ (t.hOut ≠ s.hOut → i = .cmph) ∧
    (t.adcT ≠ s.adcT → i = .ldraw) ∧ (t.adcP ≠ s.adcP → i = .ldraw) ∧ (t.adcH ≠ s.adcH → i = .ldraw) ∧
    (t.calib ≠ s.calib → i = .ldcal) ∧ (∀ a, srfByte t a = srfByte s a) ∧ t.srf = s.srf ∧
    t.config = s.config ∧ t.schedule = s.schedule ∧ t.received = s.received

/-- R3: each compensation command's results depend on its own inputs only: two states that agree on them, whatever else
they hold and whatever their policies, get the same results where both complete. -/
def Obligations.CompensationReadsOnlyItsInputs : Prop :=
  (∀ s s' t t' : State, s.tFine = s'.tFine → s.adcP = s'.adcP → s.calib.p1 = s'.calib.p1 →
    s.calib.p2 = s'.calib.p2 → s.calib.p3 = s'.calib.p3 → s.calib.p4 = s'.calib.p4 → s.calib.p5 = s'.calib.p5 →
    s.calib.p6 = s'.calib.p6 → s.calib.p7 = s'.calib.p7 → s.calib.p8 = s'.calib.p8 → s.calib.p9 = s'.calib.p9 →
    exec .cmpp s = .next t → exec .cmpp s' = .next t' → t.pOut = t'.pOut ∧ t.flag .pfail = t'.flag .pfail) ∧
  (∀ s s' t t' : State, s.tFine = s'.tFine → s.adcH = s'.adcH → s.calib.h1 = s'.calib.h1 →
    s.calib.h2 = s'.calib.h2 → s.calib.h3 = s'.calib.h3 → s.calib.h4 = s'.calib.h4 → s.calib.h5 = s'.calib.h5 →
    s.calib.h6 = s'.calib.h6 → exec .cmph s = .next t → exec .cmph s' = .next t' → t.hOut = t'.hOut)

/-- R130: CMPP and CMPH may be swapped: both orders end in the same answer. -/
def Obligations.CmppAndCmphCommute : Prop :=
  ∀ s : State, andThen (exec .cmpp s) (exec .cmph) = andThen (exec .cmph s) (exec .cmpp)

/-- R79, R95, R96, R126: a new sample latched by LDRAW, then CMPP before CMPT: under WRAP_FLAG it completes with the T_FINE
held before, ORD is set, and P_OUT is the vendor routine's value of the new ADC_P and that T_FINE. Reading the C listing on
wrapping 32-bit registers is presumed (notes/assumptions/11.md). -/
def Obligations.ReorderedPressureUsesTheOldFineTemperature : Prop :=
  ∀ s : State, s.config.ovfPolicy = .wrapFlag →
    ∃ t u, exec .ldraw s = .next t ∧ exec .cmpp t = .next u ∧ u.tFine = s.tFine ∧ u.flag .ord = true ∧
      u.pOut = vendorPressure s.tFine
        ((srfByte s 0xF7#8 ++ srfByte s 0xF8#8 ++ (srfByte s 0xF9#8).extractLsb' 4 4 : BitVec 20).setWidth 32) s.calib

/-- R62, R126: the three compensations in the order of COMPALL never set ORD, under WRAP_FLAG from any state. -/
def Obligations.RightOrderNeverSetsOrd : Prop :=
  ∀ s : State, s.config.ovfPolicy = .wrapFlag →
    ∃ t, andThen (andThen (exec .cmpt s) (exec .cmpp)) (exec .cmph) = .next t ∧ t.flag .ord = s.flag .ord ∧
      t.flag .tfv = true

/-- R74: LDCAL completes from every state with TFV = 0, coefficients changed or not, and a CMPP or CMPH that completes
right after it sets ORD. -/
def Obligations.LdcalMakesFineTemperatureStale : Prop :=
  ∀ s : State, ∃ t, exec .ldcal s = .next t ∧ t.flag .tfv = false ∧
    ∀ (i : Instr) (u : State), i = .cmpp ∨ i = .cmph → exec i t = .next u →
      u.flag .ord = true ∧ u.tFine = s.tFine

/-- R14, R117: a one-host schedule under WRAP_FLAG is served to its end: no number of steps ends in a stop. -/
def Obligations.OneHostRunNeverStops : Prop :=
  ∀ (n : Nat) (s : State), s.config.ovfPolicy = .wrapFlag → singleHost s.schedule = true →
    ∃ t, Sys2Proof.core.run n s = .next t ∧ t.schedule = s.schedule.drop n

/-- R131 as the model reads it (notes/assumptions/15.md): LDCAL leaves an engine configured, LDRAW makes a configured
engine sampled, CMPT completes the sample, and no command takes an engine back to unconfigured. -/
def Obligations.PhasesFollowTheCommands : Prop :=
  (∀ s t : State, exec .ldcal s = .next t → t.phase = .ready ∨ t.phase = .sampled) ∧
  (∀ s t : State, exec .ldraw s = .next t → s.phase ≠ .unconfigured → t.phase = .sampled) ∧
  (∀ s t : State, exec .cmpt s = .next t → s.phase = .sampled ∨ s.phase = .compensated → t.phase = .compensated) ∧
  (∀ (i : Instr) (s t : State), exec i s = .next t → s.phase ≠ .unconfigured → t.phase ≠ .unconfigured)

/-! ### Arithmetic -/

/-- R12: `s32chk` and the signed operations on it; `asr` is the floor of the quotient. -/
def Obligations.SignedArithmeticRule : Prop :=
  (∀ (p : OvfPolicy) (o : Bool) (r : Int), inS32 r → (s32chk r).eval p o = .ok (r, o)) ∧
  (∀ (o : Bool) (r : Int), ¬ inS32 r → ∃ w, (s32chk r).eval .wrapFlag o = .ok (w, true) ∧ inS32 w ∧
    ∃ k : Int, r = w + k * 2 ^ 32) ∧
  (∀ (o : Bool) (r : Int), ¬ inS32 r → (s32chk r).eval .fault o = .error .overflow) ∧
  (∀ (a b : Int), sadd a b = s32chk (a + b) ∧ ssub a b = s32chk (a - b) ∧ smul a b = s32chk (a * b)) ∧
  (∀ (a : Int) (k : Nat), sshl a k = s32chk (a * 2 ^ k) ∧ asr a k = ⌊(a : ℚ) / 2 ^ k⌋)
end

