-- ==== Sys2Proof/Laws/Arith.lean ====
section
/-! SUPPORT. The laws of the checked arithmetic. `Arith.Gives m v b` says everything a computation can do: its value
`v`, and whether it overflows, `b`; under WRAP_FLAG it always answers, under FAULT it faults exactly when it overflows
(00_scope.md R12, R14, R16). Each computation of the compensation commands gives something. -/

namespace Sys2Proof.Machine

/-- The computation `m` has value `v`, and meets an overflow exactly when `b`. -/
def Arith.Gives {α : Type} (m : Arith α) (v : α) (b : Bool) : Prop :=
  ∀ o, m.eval .wrapFlag o = .ok (v, o || b) ∧ m.eval .fault o = if b then .error .overflow else .ok (v, o)

theorem Arith.gives_pure {α : Type} (v : α) : Arith.Gives (pure v : Arith α) v false := fun o => by
  cases o <;> exact ⟨rfl, rfl⟩

theorem Arith.gives_bind {α β : Type} {m : Arith α} {f : α → Arith β} {v : α} {w : β} {b c : Bool}
    (hm : Arith.Gives m v b) (hf : Arith.Gives (f v) w c) : Arith.Gives (m >>= f) w (b || c) := fun o => by
  have step : ∀ p, (m >>= f).eval p o = (m.eval p o).bind fun r => (f r.1).eval p r.2 := fun _ => rfl
  constructor
  · rw [step, (hm o).1]
    show (f v).eval .wrapFlag (o || b) = _
    rw [(hf _).1, Bool.or_assoc]
  · rw [step, (hm o).2]
    cases b
    · exact (hf o).2
    · rfl

theorem Arith.gives_s32chk (r : Int) :
    Arith.Gives (s32chk r) (if inS32 r then r else wrapS32 r) (!decide (inS32 r)) := fun o => by
  have h : ∀ p, (s32chk r).eval p o = if inS32 r then .ok (r, o)
      else match p with
        | .wrapFlag => .ok (wrapS32 r, true)
        | .fault => .error .overflow := fun _ => rfl
  by_cases hr : inS32 r
  · simp only [h, if_pos hr, decide_eq_true hr, Bool.not_true, Bool.or_false, Bool.false_eq_true, if_false, and_self]
  · simp only [h, if_neg hr, decide_eq_false hr, Bool.not_false, Bool.or_true, if_true, and_self]

/-- A computation gives one thing only. -/
theorem Arith.gives_unique {α : Type} {m : Arith α} {v w : α} {b c : Bool}
    (h : Arith.Gives m v b) (k : Arith.Gives m w c) : v = w ∧ b = c := by
  have := (h false).1.symm.trans (k false).1
  simpa using this

/-- The computation gives something. -/
def Arith.Defined {α : Type} (m : Arith α) : Prop := ∃ v b, Arith.Gives m v b

theorem Arith.defined_pure {α : Type} (v : α) : Arith.Defined (pure v : Arith α) := ⟨v, false, Arith.gives_pure v⟩

theorem Arith.defined_bind {α β : Type} {m : Arith α} {f : α → Arith β}
    (hm : Arith.Defined m) (hf : ∀ v, Arith.Defined (f v)) : Arith.Defined (m >>= f) := by
  obtain ⟨v, b, hv⟩ := hm
  obtain ⟨w, c, hw⟩ := hf v
  exact ⟨w, b || c, Arith.gives_bind hv hw⟩

/-- What a sequence of two computations gives comes from what each gives. -/
theorem Arith.gives_bind_inv {α β : Type} {m : Arith α} {f : α → Arith β} {w : β} {d : Bool}
    (hm : Arith.Defined m) (hf : ∀ v, Arith.Defined (f v)) (h : Arith.Gives (m >>= f) w d) :
    ∃ v b c, Arith.Gives m v b ∧ Arith.Gives (f v) w c ∧ d = (b || c) := by
  obtain ⟨v, b, hv⟩ := hm
  obtain ⟨x, c, hx⟩ := hf v
  obtain ⟨rfl, rfl⟩ := Arith.gives_unique h (Arith.gives_bind hv hx)
  exact ⟨v, b, c, hv, hx, rfl⟩

theorem Arith.defined_s32chk (r : Int) : Arith.Defined (s32chk r) := ⟨_, _, Arith.gives_s32chk r⟩
theorem Arith.defined_sadd (a b : Int) : Arith.Defined (sadd a b) := Arith.defined_s32chk _
theorem Arith.defined_ssub (a b : Int) : Arith.Defined (ssub a b) := Arith.defined_s32chk _
theorem Arith.defined_smul (a b : Int) : Arith.Defined (smul a b) := Arith.defined_s32chk _
theorem Arith.defined_sshl (a : Int) (k : Nat) : Arith.Defined (sshl a k) := Arith.defined_s32chk _

theorem temperature_defined (mode : TDivMode) (adcT : Int) (c : Calib) : (temperature mode adcT c).Defined := by
  unfold temperature fineTemp tempTerm1 tempTerm2 tempOutput
  repeat' with_reducible first
    | apply Arith.defined_bind
    | apply Arith.defined_sadd
    | apply Arith.defined_ssub
    | apply Arith.defined_smul
    | apply Arith.defined_sshl
    | apply Arith.defined_pure
    | intro _

theorem pressCorrect_defined (p : Nat) (p7 p8 p9 : Int) : (pressCorrect p p7 p8 p9).Defined := by
  unfold pressCorrect
  repeat' with_reducible first
    | apply Arith.defined_bind
    | apply Arith.defined_sadd
    | apply Arith.defined_smul
    | apply Arith.defined_pure
    | intro _

theorem pressDivide_defined (adcP v1 v2 : Int) : (pressDivide adcP v1 v2).Defined := by
  unfold pressDivide
  exact Arith.defined_bind (Arith.defined_ssub ..) fun _ => Arith.defined_pure _

theorem pressure_defined (tf adcP : Int) (c : Calib) : (pressure tf adcP c).Defined := by
  unfold pressure pressCentre pressOffset pressSlope pressDivisor
  repeat' with_reducible first
    | apply Arith.defined_bind
    | apply Arith.defined_sadd
    | apply Arith.defined_ssub
    | apply Arith.defined_smul
    | apply Arith.defined_sshl
    | apply Arith.defined_pure
    | apply pressCorrect_defined
    | apply pressDivide_defined
    | intro _
    | split

theorem humA_defined (v adcH h4 h5 : Int) : (humA v adcH h4 h5).Defined := by
  unfold humA
  repeat' with_reducible first
    | apply Arith.defined_bind
    | apply Arith.defined_sadd
    | apply Arith.defined_ssub
    | apply Arith.defined_smul
    | apply Arith.defined_sshl
    | apply Arith.defined_pure
    | intro _

theorem humB_defined (v h2 h3 h6 : Int) : (humB v h2 h3 h6).Defined := by
  unfold humB
  repeat' with_reducible first
    | apply Arith.defined_bind
    | apply Arith.defined_sadd
    | apply Arith.defined_ssub
    | apply Arith.defined_smul
    | apply Arith.defined_sshl
    | apply Arith.defined_pure
    | intro _

theorem humCorrect_defined (v h1 : Int) : (humCorrect v h1).Defined := by
  unfold humCorrect
  repeat' with_reducible first
    | apply Arith.defined_bind
    | apply Arith.defined_sadd
    | apply Arith.defined_ssub
    | apply Arith.defined_smul
    | apply Arith.defined_sshl
    | apply Arith.defined_pure
    | intro _

theorem humidity_defined (tf adcH : Int) (c : Calib) : (humidity tf adcH c).Defined :=
  Arith.defined_bind (Arith.defined_ssub ..) fun _ => Arith.defined_bind (humA_defined ..) fun _ =>
    Arith.defined_bind (humB_defined ..) fun _ => Arith.defined_bind (Arith.defined_smul ..) fun _ =>
      Arith.defined_bind (humCorrect_defined ..) fun _ => Arith.defined_pure _

/-- Everything a command that ends with `commit` can answer. -/
theorem commit_of_gives {α : Type} {m : Arith α} {v : α} {b : Bool} (h : Arith.Gives m v b) (s : State)
    (k : α → Bool → State) :
    commit m s k =
      match s.config.ovfPolicy with
      | .wrapFlag => .next (k v b)
      | .fault => if b then .fault .overflow else .next (k v false) := by
  unfold commit
  cases s.config.ovfPolicy
  · rw [(h false).1]; rfl
  · rw [(h false).2]; cases b <;> rfl

/-- A next state of `commit` is what the command writes from the computation's value. -/
theorem commit_next {α : Type} {m : Arith α} (hm : m.Defined) {s t : State} {k : α → Bool → State}
    (h : commit m s k = .next t) : ∃ v b, Arith.Gives m v b ∧ t = k v b := by
  obtain ⟨v, b, hv⟩ := hm
  refine ⟨v, b, hv, ?_⟩
  rw [commit_of_gives hv] at h
  revert h
  cases s.config.ovfPolicy
  · intro h; injection h with h; exact h.symm
  · cases b
    · intro h; injection h with h; exact h.symm
    · intro h; cases h

/-- The policy and the overflow mark play no part in what a computation gives, so two commands on the same inputs give
the same. -/
theorem commit_next_same {α : Type} {m : Arith α} {v : α} {b : Bool} (hv : Arith.Gives m v b) {s t : State}
    {k : α → Bool → State} (h : commit m s k = .next t) : t = k v b := by
  obtain ⟨w, c, hw, rfl⟩ := commit_next ⟨v, b, hv⟩ h
  obtain ⟨rfl, rfl⟩ := Arith.gives_unique hv hw
  rfl

/-- The wrapped value of `s32chk` lies in s32. -/
theorem wrapS32_inS32 (r : Int) : inS32 (wrapS32 r) := by
  unfold wrapS32
  omega

/-- Wrapping changes nothing modulo 2^32. -/
theorem wrapS32_emod (r : Int) : wrapS32 r % 4294967296 = r % 4294967296 := by
  unfold wrapS32
  omega

theorem wrapS32_of_inS32 {r : Int} (h : inS32 r) : wrapS32 r = r := by
  unfold wrapS32
  omega

/-- `s32chk`'s value is the wrapped one in every case. -/
theorem Arith.gives_wrap (r : Int) : Arith.Gives (s32chk r) (wrapS32 r) (!decide (inS32 r)) := by
  have h := Arith.gives_s32chk r
  by_cases hr : inS32 r
  · rw [if_pos hr] at h
    rwa [wrapS32_of_inS32 hr]
  · rwa [if_neg hr] at h

end Sys2Proof.Machine
end

