-- ==== Sys2Proof/Laws/State.lean ====
section
/-! SUPPORT. What each named update of the state does to each field of it, true by definition. -/

namespace Sys2Proof.Machine

@[simp] theorem memWrite_srf (s : State) (a v : Byte) : (memWrite s a v).srf = s.srf.write a.toNat v := rfl
@[simp] theorem memWrite_status (s : State) (a v : Byte) : (memWrite s a v).status = s.status := rfl
@[simp] theorem memWrite_tOut (s : State) (a v : Byte) : (memWrite s a v).tOut = s.tOut := rfl
@[simp] theorem memWrite_pOut (s : State) (a v : Byte) : (memWrite s a v).pOut = s.pOut := rfl
@[simp] theorem memWrite_hOut (s : State) (a v : Byte) : (memWrite s a v).hOut = s.hOut := rfl
@[simp] theorem memWrite_tFine (s : State) (a v : Byte) : (memWrite s a v).tFine = s.tFine := rfl
@[simp] theorem memWrite_adcT (s : State) (a v : Byte) : (memWrite s a v).adcT = s.adcT := rfl
@[simp] theorem memWrite_adcP (s : State) (a v : Byte) : (memWrite s a v).adcP = s.adcP := rfl
@[simp] theorem memWrite_adcH (s : State) (a v : Byte) : (memWrite s a v).adcH = s.adcH := rfl
@[simp] theorem memWrite_calib (s : State) (a v : Byte) : (memWrite s a v).calib = s.calib := rfl
@[simp] theorem memWrite_config (s : State) (a v : Byte) : (memWrite s a v).config = s.config := rfl
@[simp] theorem memWrite_schedule (s : State) (a v : Byte) : (memWrite s a v).schedule = s.schedule := rfl
@[simp] theorem memWrite_received (s : State) (a v : Byte) : (memWrite s a v).received = s.received := rfl
@[simp] theorem hostWrite_eq (s : State) (a v : Byte) : hostWrite a v s = memWrite s a v := rfl

@[simp] theorem hostRead_received (s : State) (i : Byte) :
    (hostRead i s).received = s.received ++ [readPort s i] := rfl
@[simp] theorem hostRead_srf (s : State) (i : Byte) : (hostRead i s).srf = s.srf := rfl
@[simp] theorem hostRead_status (s : State) (i : Byte) : (hostRead i s).status = s.status := rfl
@[simp] theorem hostRead_tOut (s : State) (i : Byte) : (hostRead i s).tOut = s.tOut := rfl
@[simp] theorem hostRead_pOut (s : State) (i : Byte) : (hostRead i s).pOut = s.pOut := rfl
@[simp] theorem hostRead_hOut (s : State) (i : Byte) : (hostRead i s).hOut = s.hOut := rfl
@[simp] theorem hostRead_tFine (s : State) (i : Byte) : (hostRead i s).tFine = s.tFine := rfl
@[simp] theorem hostRead_calib (s : State) (i : Byte) : (hostRead i s).calib = s.calib := rfl
@[simp] theorem hostRead_adcT (s : State) (i : Byte) : (hostRead i s).adcT = s.adcT := rfl
@[simp] theorem hostRead_adcP (s : State) (i : Byte) : (hostRead i s).adcP = s.adcP := rfl
@[simp] theorem hostRead_adcH (s : State) (i : Byte) : (hostRead i s).adcH = s.adcH := rfl
@[simp] theorem hostRead_config (s : State) (i : Byte) : (hostRead i s).config = s.config := rfl
@[simp] theorem hostRead_schedule (s : State) (i : Byte) : (hostRead i s).schedule = s.schedule := rfl

@[simp] theorem platformReset_srf (s : State) : (platformReset s).srf = [] := rfl
@[simp] theorem platformReset_status (s : State) : (platformReset s).status = 0#32 := rfl
@[simp] theorem platformReset_tOut (s : State) : (platformReset s).tOut = 0#32 := rfl
@[simp] theorem platformReset_pOut (s : State) : (platformReset s).pOut = 0#32 := rfl
@[simp] theorem platformReset_hOut (s : State) : (platformReset s).hOut = 0#32 := rfl
@[simp] theorem platformReset_tFine (s : State) : (platformReset s).tFine = 0#32 := rfl
@[simp] theorem platformReset_adcT (s : State) : (platformReset s).adcT = 0#20 := rfl
@[simp] theorem platformReset_adcP (s : State) : (platformReset s).adcP = 0#20 := rfl
@[simp] theorem platformReset_adcH (s : State) : (platformReset s).adcH = 0#16 := rfl
@[simp] theorem platformReset_calib (s : State) : (platformReset s).calib = Calib.zero := rfl
@[simp] theorem platformReset_config (s : State) : (platformReset s).config = s.config := rfl
@[simp] theorem platformReset_schedule (s : State) : (platformReset s).schedule = s.schedule := rfl
@[simp] theorem platformReset_received (s : State) : (platformReset s).received = s.received := rfl

@[simp] theorem writePressure_pOut (s : State) (p : Option Nat) (o : Bool) :
    (writePressure s p o).pOut = BitVec.ofNat 32 (p.getD 0) := rfl
@[simp] theorem writePressure_status (s : State) (p : Option Nat) (o : Bool) :
    (writePressure s p o).status = cmppStatus p.isNone o s.status := rfl
@[simp] theorem writePressure_tOut (s : State) (p : Option Nat) (o : Bool) :
    (writePressure s p o).tOut = s.tOut := rfl
@[simp] theorem writePressure_hOut (s : State) (p : Option Nat) (o : Bool) :
    (writePressure s p o).hOut = s.hOut := rfl
@[simp] theorem writePressure_tFine (s : State) (p : Option Nat) (o : Bool) :
    (writePressure s p o).tFine = s.tFine := rfl
@[simp] theorem writePressure_adcT (s : State) (p : Option Nat) (o : Bool) :
    (writePressure s p o).adcT = s.adcT := rfl
@[simp] theorem writePressure_adcP (s : State) (p : Option Nat) (o : Bool) :
    (writePressure s p o).adcP = s.adcP := rfl
@[simp] theorem writePressure_adcH (s : State) (p : Option Nat) (o : Bool) :
    (writePressure s p o).adcH = s.adcH := rfl
@[simp] theorem writePressure_calib (s : State) (p : Option Nat) (o : Bool) :
    (writePressure s p o).calib = s.calib := rfl
@[simp] theorem writePressure_srf (s : State) (p : Option Nat) (o : Bool) :
    (writePressure s p o).srf = s.srf := rfl
@[simp] theorem writePressure_config (s : State) (p : Option Nat) (o : Bool) :
    (writePressure s p o).config = s.config := rfl
@[simp] theorem writePressure_schedule (s : State) (p : Option Nat) (o : Bool) :
    (writePressure s p o).schedule = s.schedule := rfl
@[simp] theorem writePressure_received (s : State) (p : Option Nat) (o : Bool) :
    (writePressure s p o).received = s.received := rfl

@[simp] theorem resetWith_srf (c : Config) : (State.resetWith c).srf = [] := rfl
@[simp] theorem resetWith_status (c : Config) : (State.resetWith c).status = 0#32 := rfl
@[simp] theorem resetWith_schedule (c : Config) : (State.resetWith c).schedule = [] := rfl
@[simp] theorem resetWith_config (c : Config) : (State.resetWith c).config = c := rfl

end Sys2Proof.Machine
end

