-- ==== Sys2Proof/Laws/Exec.lean ====
section
/-! SUPPORT. One inversion lemma per command whose meaning ends with `commit`: what a next state of it is. The other
meanings answer one next state by definition. -/

namespace Sys2Proof.Machine

theorem execCmpt_next {s t : State} (h : execCmpt s = .next t) :
    ∃ v b, (temperature s.config.tDivMode s.adcT.toNat s.calib).Gives v b ∧
      t = { s with tFine := BitVec.ofInt 32 v.1, tOut := BitVec.ofInt 32 v.2, status := cmptStatus b s.status } :=
  commit_next (temperature_defined ..) h

theorem execCmpp_next {s t : State} (h : execCmpp s = .next t) :
    ∃ p b, (pressure s.tFine.toInt s.adcP.toNat s.calib).Gives p b ∧ t = writePressure s p b :=
  commit_next (pressure_defined ..) h

theorem execCmph_next {s t : State} (h : execCmph s = .next t) :
    ∃ v b, (humidity s.tFine.toInt s.adcH.toNat s.calib).Gives v b ∧
      t = { s with hOut := BitVec.ofInt 32 v, status := cmphStatus b s.status } :=
  commit_next (humidity_defined ..) h

/-- The clamp of R99 leaves a value in its bounds. -/
theorem humClamp_range (v : Int) : 0 ≤ humClamp v ∧ humClamp v ≤ 419430400 := by
  unfold humClamp
  split <;> simp only <;> split <;> omega

/-- Whatever the inputs, overflow included, the humidity lies in 0..102400 (44_humidity.md R100). -/
theorem humidity_range {tf adcH v : Int} {c : Calib} {b : Bool} (h : (humidity tf adcH c).Gives v b) :
    0 ≤ v ∧ v ≤ 102400 := by
  have tail : ∀ w : Int, (pure (asr (humClamp w) 12) : Arith Int).Defined := fun _ => Arith.defined_pure _
  have square : ∀ w : Int, (humCorrect w (c.value .h1) >>= fun w => pure (asr (humClamp w) 12) : Arith Int).Defined :=
    fun _ => Arith.defined_bind (humCorrect_defined ..) tail
  have fromB : ∀ a x : Int, (smul a x >>= fun w =>
      humCorrect w (c.value .h1) >>= fun w => pure (asr (humClamp w) 12) : Arith Int).Defined :=
    fun _ _ => Arith.defined_bind (Arith.defined_smul ..) square
  have fromA : ∀ w a : Int, (humB w (c.value .h2) (c.value .h3) (c.value .h6) >>= fun x => smul a x >>= fun w =>
      humCorrect w (c.value .h1) >>= fun w => pure (asr (humClamp w) 12) : Arith Int).Defined :=
    fun _ _ => Arith.defined_bind (humB_defined ..) (fromB _)
  obtain ⟨_, _, _, -, h, -⟩ := Arith.gives_bind_inv (Arith.defined_ssub ..)
    (fun w => Arith.defined_bind (humA_defined ..) (fromA w)) h
  obtain ⟨_, _, _, -, h, -⟩ := Arith.gives_bind_inv (humA_defined ..) (fromA _) h
  obtain ⟨_, _, _, -, h, -⟩ := Arith.gives_bind_inv (humB_defined ..) (fromB _) h
  obtain ⟨_, _, _, -, h, -⟩ := Arith.gives_bind_inv (Arith.defined_smul ..) square h
  obtain ⟨w, _, _, -, h, -⟩ := Arith.gives_bind_inv (humCorrect_defined ..) tail h
  obtain ⟨rfl, -⟩ := Arith.gives_unique h (Arith.gives_pure _)
  have := humClamp_range w
  rw [asr]
  omega

end Sys2Proof.Machine
end

