-- ==== Sys2Proof/Laws/Flags.lean ====
section
/-! SUPPORT. The laws of the STATUS fields: what `putFlag` and `orFlag` do to each field and to the reserved bits, and
each command's STATUS computation field by field. -/

namespace Sys2Proof.Machine

theorem Flag.mask_bit (f : Flag) (k : Nat) : f.mask.getLsbD k = decide (k = f.bit) := by
  have h1 : ∀ j : Nat, (1#32).getLsbD j = decide (j = 0) := fun j => by
    rcases j with _ | j <;> simp [BitVec.getLsbD, Nat.testBit_succ]
  have hb : f.bit < 32 := by cases f <;> decide
  rw [Flag.mask, BitVec.getLsbD_shiftLeft, h1]
  by_cases hk : k = f.bit
  · simp [hk, hb]
  · by_cases hlt : k < f.bit
    · simp [hlt, hk]
    · have : k - f.bit ≠ 0 := by omega
      simp [this, hk]

theorem Flag.bit_inj {f g : Flag} (h : f.bit = g.bit) : f = g := by
  cases f <;> cases g <;> first | rfl | (exact absurd h (by decide))

theorem putFlag_bit (f : Flag) (b : Bool) (w : Word) (k : Nat) :
    (putFlag f b w).getLsbD k = if k = f.bit then b else w.getLsbD k := by
  have hb : f.bit < 32 := by cases f <;> decide
  cases b
  · rw [putFlag, if_neg (by decide), BitVec.getLsbD_and, BitVec.getLsbD_not, Flag.mask_bit]
    by_cases hk : k = f.bit
    · simp [hk]
    · by_cases hlt : k < 32
      · simp only [hk, hlt, decide_true, decide_false, Bool.not_false, Bool.and_true, if_false]
      · simp only [hk, hlt, decide_false, Bool.false_and, Bool.and_false, if_false,
          BitVec.getLsbD_of_ge _ _ (Nat.le_of_not_lt hlt)]
  · rw [putFlag, if_pos rfl, BitVec.getLsbD_or, Flag.mask_bit]
    by_cases hk : k = f.bit <;> simp [hk]

@[simp] theorem getFlag_putFlag (f g : Flag) (b : Bool) (w : Word) :
    getFlag f (putFlag g b w) = if f = g then b else getFlag f w := by
  rw [getFlag, putFlag_bit]
  by_cases h : f = g
  · simp [h]
  · rw [if_neg h, if_neg fun e => h (Flag.bit_inj e), getFlag]

@[simp] theorem getFlag_orFlag (f g : Flag) (b : Bool) (w : Word) :
    getFlag f (orFlag g b w) = if f = g then (getFlag f w || b) else getFlag f w := by
  rw [orFlag, getFlag_putFlag]
  by_cases h : f = g <;> simp [h]

theorem Flag.bit_lt (f : Flag) : f.bit < 9 := by cases f <;> decide

theorem putFlag_reserved (f : Flag) (b : Bool) (w : Word) {k : Nat} (hk : 9 ≤ k) :
    (putFlag f b w).getLsbD k = w.getLsbD k := by
  have := f.bit_lt
  rw [putFlag_bit, if_neg (by omega)]

theorem orFlag_reserved (f : Flag) (b : Bool) (w : Word) {k : Nat} (hk : 9 ≤ k) :
    (orFlag f b w).getLsbD k = w.getLsbD k := putFlag_reserved f _ w hk

/-- Two STATUS words are the same when their fields and their reserved bits are. -/
theorem status_ext {v w : Word} (hf : ∀ f, getFlag f v = getFlag f w)
    (hr : ∀ k, 9 ≤ k → v.getLsbD k = w.getLsbD k) : v = w := by
  apply BitVec.eq_of_getLsbD_eq
  intro k _
  by_cases hk : 9 ≤ k
  · exact hr k hk
  · have h9 : k < 9 := by omega
    rcases k with _ | _ | _ | _ | _ | _ | _ | _ | _ | k
    · exact hf .calv
    · exact hf .rawv
    · exact hf .tfv
    · exact hf .pfail
    · exact hf .ord
    · exact hf .nocal
    · exact hf .noraw
    · exact hf .ovf
    · exact hf .ill
    · omega

theorem getFlag_ldcalStatus (f : Flag) (w : Word) :
    getFlag f (ldcalStatus w) = if f = .tfv then false else if f = .calv then true else getFlag f w := by
  simp [ldcalStatus]

theorem getFlag_ldrawStatus (f : Flag) (w : Word) :
    getFlag f (ldrawStatus w) = if f = .tfv then false else if f = .rawv then true else getFlag f w := by
  simp [ldrawStatus]

theorem getFlag_clrsStatus (f : Flag) (w : Word) :
    getFlag f (clrsStatus w) = if f.sticky then false else getFlag f w := by
  cases f <;> simp [clrsStatus, Flag.sticky]

theorem getFlag_reservedStatus (f : Flag) (w : Word) :
    getFlag f (reservedStatus w) = if f = .ill then true else getFlag f w := by
  simp [reservedStatus]

theorem getFlag_cmptStatus (f : Flag) (o : Bool) (w : Word) :
    getFlag f (cmptStatus o w) =
      match f with
      | .tfv => true
      | .nocal => getFlag .nocal w || !getFlag .calv w
      | .noraw => getFlag .noraw w || !getFlag .rawv w
      | .ovf => getFlag .ovf w || o
      | f => getFlag f w := by
  cases f <;> simp [cmptStatus, orInputErrors]

theorem getFlag_cmppStatus (f : Flag) (p o : Bool) (w : Word) :
    getFlag f (cmppStatus p o w) =
      match f with
      | .pfail => p
      | .ord => getFlag .ord w || !getFlag .tfv w
      | .nocal => getFlag .nocal w || !getFlag .calv w
      | .noraw => getFlag .noraw w || !getFlag .rawv w
      | .ovf => getFlag .ovf w || o
      | f => getFlag f w := by
  cases f <;> simp [cmppStatus, orInputErrors]

theorem getFlag_cmphStatus (f : Flag) (o : Bool) (w : Word) :
    getFlag f (cmphStatus o w) =
      match f with
      | .ord => getFlag .ord w || !getFlag .tfv w
      | .nocal => getFlag .nocal w || !getFlag .calv w
      | .noraw => getFlag .noraw w || !getFlag .rawv w
      | .ovf => getFlag .ovf w || o
      | f => getFlag f w := by
  cases f <;> simp [cmphStatus, orInputErrors]

section Reserved
variable (w : Word) {k : Nat} (hk : 9 ≤ k)
include hk

theorem ldcalStatus_reserved : (ldcalStatus w).getLsbD k = w.getLsbD k := by
  simp only [ldcalStatus, putFlag_reserved _ _ _ hk]

theorem ldrawStatus_reserved : (ldrawStatus w).getLsbD k = w.getLsbD k := by
  simp only [ldrawStatus, putFlag_reserved _ _ _ hk]

theorem clrsStatus_reserved : (clrsStatus w).getLsbD k = w.getLsbD k := by
  simp only [clrsStatus, putFlag_reserved _ _ _ hk]

theorem reservedStatus_reserved : (reservedStatus w).getLsbD k = w.getLsbD k := by
  simp only [reservedStatus, putFlag_reserved _ _ _ hk]

theorem cmptStatus_reserved (o : Bool) : (cmptStatus o w).getLsbD k = w.getLsbD k := by
  simp only [cmptStatus, orInputErrors, orFlag_reserved _ _ _ hk, putFlag_reserved _ _ _ hk]

theorem cmppStatus_reserved (p o : Bool) : (cmppStatus p o w).getLsbD k = w.getLsbD k := by
  simp only [cmppStatus, orInputErrors, orFlag_reserved _ _ _ hk, putFlag_reserved _ _ _ hk]

theorem cmphStatus_reserved (o : Bool) : (cmphStatus o w).getLsbD k = w.getLsbD k := by
  simp only [cmphStatus, orInputErrors, orFlag_reserved _ _ _ hk]

end Reserved

end Sys2Proof.Machine
end

