-- ==== Sys2Proof/Laws/Memory.lean ====
section
/-! SUPPORT. The laws of the shadow register file: a read after a write, and the canonical form every write keeps. -/

namespace Sys2Proof.Machine

@[simp] theorem Memory.read_nil (a : Nat) : Memory.read [] a = Memory.unlisted := rfl

theorem Memory.wf_nil : Memory.wf [] := ⟨List.Pairwise.nil, fun _ h => by cases h⟩

theorem Memory.wf_tail {x : Host.Cell} {m : Memory} (h : Memory.wf (x :: m)) : Memory.wf m :=
  ⟨(List.pairwise_cons.1 h.1).2, fun y hy => h.2 y (List.mem_cons_of_mem _ hy)⟩

/-- Below every listed address nothing is listed. -/
theorem Memory.read_below {m : Memory} {a : Nat} (h : ∀ x ∈ m, a < x.1) : Memory.read m a = Memory.unlisted := by
  induction m with
  | nil => rfl
  | cons x m ih =>
    have hx := h x (List.mem_cons_self ..)
    rw [Memory.read, if_neg (by omega), ih fun y hy => h y (List.mem_cons_of_mem _ hy)]

theorem Memory.read_write_same {m : Memory} (h : Memory.wf m) (a : Nat) (v : Byte) :
    (Memory.write m a v).read a = v := by
  induction m with
  | nil =>
    rw [Memory.write]
    split
    · next hv => rw [hv]; rfl
    · simp [Memory.read]
  | cons x m ih =>
    obtain ⟨b, w⟩ := x
    have below : ∀ y ∈ m, b < y.1 := fun y hy => (List.pairwise_cons.1 h.1).1 y hy
    rw [Memory.write]
    split
    · next hlt =>
      split
      · next hv =>
        rw [hv, Memory.read, if_neg (by omega)]
        exact Memory.read_below fun y hy => by have := below y hy; omega
      · simp [Memory.read]
    · split
      · next heq =>
        split
        · next hv => rw [hv, heq]; exact Memory.read_below below
        · simp [Memory.read]
      · next hne => rw [Memory.read, if_neg hne, ih (Memory.wf_tail h)]

theorem Memory.read_write_other {m : Memory} (a b : Nat) (v : Byte) (hab : b ≠ a) :
    (Memory.write m a v).read b = m.read b := by
  induction m with
  | nil =>
    rw [Memory.write]
    split
    · rfl
    · simp [Memory.read, hab]
  | cons x m ih =>
    obtain ⟨k, w⟩ := x
    rw [Memory.write]
    split
    · split
      · rfl
      · simp [Memory.read, hab]
    · split
      · next heq =>
        subst heq
        split <;> simp [Memory.read, hab]
      · simp [Memory.read, ih]

/-- A written memory lists the old addresses and perhaps the written one. -/
theorem Memory.mem_write {m : Memory} {a : Nat} {v : Byte} {x : Host.Cell} (hx : x ∈ Memory.write m a v) :
    x ∈ m ∨ (x = (a, v) ∧ v ≠ Memory.unlisted) := by
  induction m with
  | nil =>
    rw [Memory.write] at hx
    split at hx
    · cases hx
    · next hv => exact .inr ⟨by simpa using hx, hv⟩
  | cons y m ih =>
    obtain ⟨b, w⟩ := y
    rw [Memory.write] at hx
    split at hx
    · split at hx
      · exact .inl hx
      · next hv =>
        rcases List.mem_cons.1 hx with h | h
        · exact .inr ⟨h, hv⟩
        · exact .inl h
    · split at hx
      · split at hx
        · exact .inl (List.mem_cons_of_mem _ hx)
        · next hv =>
          rcases List.mem_cons.1 hx with h | h
          · exact .inr ⟨h, hv⟩
          · exact .inl (List.mem_cons_of_mem _ h)
      · rcases List.mem_cons.1 hx with h | h
        · exact .inl (h ▸ List.mem_cons_self ..)
        · exact (ih h).imp (List.mem_cons_of_mem _) id

/-- Every write keeps the canonical form. -/
theorem Memory.write_wf {m : Memory} (h : Memory.wf m) {a : Nat} (ha : a < srfSize) (v : Byte) :
    Memory.wf (Memory.write m a v) := by
  refine ⟨?_, fun x hx => ?_⟩
  · induction m with
    | nil =>
      rw [Memory.write]
      split
      · exact List.Pairwise.nil
      · exact List.pairwise_singleton ..
    | cons y m ih =>
      obtain ⟨b, w⟩ := y
      obtain ⟨below, tail⟩ := List.pairwise_cons.1 h.1
      rw [Memory.write]
      split
      · next hlt =>
        split
        · exact h.1
        · refine List.pairwise_cons.2 ⟨fun z hz => ?_, h.1⟩
          rcases List.mem_cons.1 hz with rfl | hz
          · exact hlt
          · exact Nat.lt_trans hlt (below z hz)
      · split
        · next heq =>
          split
          · exact tail
          · exact List.pairwise_cons.2 ⟨fun z hz => heq ▸ below z hz, tail⟩
        · next hnlt hne =>
          refine List.pairwise_cons.2 ⟨fun z hz => ?_, ih (Memory.wf_tail h)⟩
          rcases Memory.mem_write hz with hz | ⟨rfl, -⟩
          · exact below z hz
          · show b < a
            omega
  · rcases Memory.mem_write hx with hx | ⟨rfl, hv⟩
    · exact h.2 x hx
    · exact ⟨ha, hv⟩

/-- Equal memories are equal data: two canonical memories that read the same everywhere are the same list. -/
theorem Memory.ext_read {m n : Memory} (hm : Memory.wf m) (hn : Memory.wf n) (h : ∀ a, m.read a = n.read a) : m = n := by
  induction m generalizing n with
  | nil =>
    cases n with
    | nil => rfl
    | cons y n =>
      have := h y.1
      rw [Memory.read_nil, Memory.read, if_pos rfl] at this
      exact absurd this.symm (hn.2 y (List.mem_cons_self ..)).2
  | cons x m ih =>
    obtain ⟨a, v⟩ := x
    have bm : ∀ z ∈ m, a < z.1 := (List.pairwise_cons.1 hm.1).1
    cases n with
    | nil =>
      have := h a
      rw [Memory.read_nil, Memory.read, if_pos rfl] at this
      exact absurd this (hm.2 _ (List.mem_cons_self ..)).2
    | cons y n =>
      obtain ⟨b, w⟩ := y
      have bn : ∀ z ∈ n, b < z.1 := (List.pairwise_cons.1 hn.1).1
      have hv := (hm.2 _ (List.mem_cons_self ..)).2
      have hw := (hn.2 _ (List.mem_cons_self ..)).2
      have ha := h a
      have hb := h b
      rw [Memory.read, if_pos rfl, Memory.read] at ha
      rw [Memory.read, Memory.read, if_pos rfl] at hb
      rcases Nat.lt_trichotomy a b with hlt | rfl | hlt
      · rw [if_neg (by omega), Memory.read_below fun z hz => Nat.lt_trans hlt (bn z hz)] at ha
        exact absurd ha hv
      · rw [if_pos rfl] at ha
        subst ha
        rw [ih (Memory.wf_tail hm) (Memory.wf_tail hn) fun k => ?_]
        by_cases hk : k = a
        · rw [hk, Memory.read_below bm, Memory.read_below bn]
        · have := h k
          rwa [Memory.read, if_neg hk, Memory.read, if_neg hk] at this
      · rw [if_neg (by omega), Memory.read_below fun z hz => Nat.lt_trans hlt (bm z hz)] at hb
        exact absurd hb.symm hw

theorem byte_lt_srfSize (a : Byte) : a.toNat < srfSize := a.isLt

/-- Every operation that changes the SRF keeps its canonical form. -/
theorem memWrite_wf {s : State} (h : s.srf.wf) (a v : Byte) : (memWrite s a v).srf.wf :=
  Memory.write_wf h (byte_lt_srfSize a) v

theorem srfByte_memWrite_same {s : State} (h : s.srf.wf) (a v : Byte) : srfByte (memWrite s a v) a = v :=
  Memory.read_write_same h _ v

theorem srfByte_memWrite_other (s : State) {a b : Byte} (v : Byte) (h : b ≠ a) :
    srfByte (memWrite s a v) b = srfByte s b :=
  Memory.read_write_other _ _ v fun e => h (BitVec.eq_of_toNat_eq e)

/-- The SRF after reset is canonical. -/
theorem reset_srf_wf (c : Config) : (State.resetWith c).srf.wf := Memory.wf_nil

end Sys2Proof.Machine
end

