-- ==== Sys2Proof/Laws/PerInstr.lean ====
section
/-! SUPPORT. Statements about every command as syntax, one lemma per constructor. -/

namespace Sys2Proof.Laws.DecodeEncode

/-- A well-formed command is what its own command byte decodes to (30_encoding.md R57 to R59). -/
def Statement (i : Instr) : Prop := i.wf = true → decodeByte (encode i) = i

theorem nop : Statement .nop := fun _ => by decide
theorem ldcal : Statement .ldcal := fun _ => by decide
theorem ldraw : Statement .ldraw := fun _ => by decide
theorem cmpt : Statement .cmpt := fun _ => by decide
theorem cmpp : Statement .cmpp := fun _ => by decide
theorem cmph : Statement .cmph := fun _ => by decide
theorem clrs : Statement .clrs := fun _ => by decide
theorem reserved (c : Byte) : Statement (.reserved c) := by
  unfold Statement
  revert c
  decide

end Sys2Proof.Laws.DecodeEncode
end

