-- ==== Sys2Proof/Laws/Step.lean ====
section
/-! SUPPORT. What a step can do: wait, or serve the oldest request of a one-host schedule. -/

namespace Sys2Proof.Machine

/-- Everything a step that answers a next state can be. -/
theorem step_next {s t : State} (h : step s = .next t) :
    (s.schedule = [] ∧ t = s) ∨
    ∃ r rest, s.schedule = r :: rest ∧ singleHost s.schedule = true ∧ serve r { s with schedule := rest } = .next t := by
  unfold step at h
  split at h
  · next hs =>
    split at h
    · next he => injection h with h; exact .inl ⟨he, h.symm⟩
    · next r rest he => exact .inr ⟨r, rest, he, hs, h⟩
  · cases h

/-- Everything serving a request can be. -/
theorem serve_next {r : Request} {s t : State} (h : serve r s = .next t) :
    (r = .reset ∧ t = platformReset s) ∨ (∃ k a v, r = .host k (.write a v) ∧ t = hostWrite a v s) ∨
    (∃ k i, r = .host k (.read i) ∧ t = hostRead i s) ∨
    ∃ k c, r = .host k (.command c) ∧ exec (decodeByte c) s = .next t := by
  match r, h with
  | .reset, h => injection h with h; exact .inl ⟨rfl, h.symm⟩
  | .host k (.write a v), h => injection h with h; exact .inr (.inl ⟨k, a, v, rfl, h.symm⟩)
  | .host k (.read i), h => injection h with h; exact .inr (.inr (.inl ⟨k, i, rfl, h.symm⟩))
  | .host k (.command c), h => exact .inr (.inr (.inr ⟨k, c, rfl, h⟩))

@[simp] theorem issuers_nil : issuers [] = [] := rfl

@[simp] theorem issuers_host (k : Nat) (a : HostAction) (q : List Request) :
    issuers (.host k a :: q) = k :: issuers q := rfl

@[simp] theorem issuers_reset (q : List Request) : issuers (.reset :: q) = issuers q := rfl

/-- A schedule has one host exactly when all its issuers are the same. -/
theorem singleHost_iff (q : List Request) :
    singleHost q = true ↔ ∀ j ∈ issuers q, ∀ k ∈ issuers q, j = k := by
  unfold singleHost
  cases issuers q with
  | nil => simp
  | cons k ks =>
    simp only [List.all_eq_true, beq_iff_eq]
    constructor
    · intro h i hi j hj
      have at_k : ∀ x ∈ k :: ks, x = k := fun x hx => (List.mem_cons.1 hx).elim id (h x)
      rw [at_k i hi, at_k j hj]
    · exact fun h x hx => h x (List.mem_cons_of_mem _ hx) k (List.mem_cons_self ..)

theorem singleHost_tail {r : Request} {q : List Request} (h : singleHost (r :: q) = true) : singleHost q = true := by
  rw [singleHost_iff] at h ⊢
  cases r with
  | reset => exact h
  | host k a =>
    exact fun i hi j hj => h i (List.mem_cons_of_mem _ hi) j (List.mem_cons_of_mem _ hj)

end Sys2Proof.Machine
end

