-- ==== Sys2Proof/Laws/Words.lean ====
section
/-! SUPPORT. Two ways to follow a computation. `Arith.GivesValue` follows it on 32-bit registers: on the signed readings
of words, every checked operation gives the signed reading of the wrapped word operation. `Arith.Checks` follows it in
exact integers, with the list of results `s32chk` sees. -/

namespace Sys2Proof.Machine

/-! ### On words -/

/-- The computation has value `v`, whether it overflows or not. -/
def Arith.GivesValue {α : Type} (m : Arith α) (v : α) : Prop := ∃ b, Arith.Gives m v b

theorem Arith.givesValue_pure {α : Type} (v : α) : Arith.GivesValue (pure v : Arith α) v := ⟨false, Arith.gives_pure v⟩

theorem Arith.givesValue_bind {α β : Type} {m : Arith α} {f : α → Arith β} {v : α} {w : β}
    (hm : Arith.GivesValue m v) (hf : Arith.GivesValue (f v) w) : Arith.GivesValue (m >>= f) w :=
  let ⟨_, h⟩ := hm
  let ⟨_, k⟩ := hf
  ⟨_, Arith.gives_bind h k⟩

/-- The signed reading of the word of an integer is the wrapped integer. -/
theorem toInt_ofInt_eq_wrapS32 (r : Int) : (BitVec.ofInt 32 r).toInt = wrapS32 r := by
  rw [BitVec.toInt_ofInt, Int.bmod_def]
  unfold wrapS32
  split <;> omega

theorem word_inS32 (w : Word) : inS32 w.toInt := by
  have h1 := w.toInt_lt
  have h2 := w.le_toInt
  constructor <;> omega

theorem givesValue_sadd (x y : Word) : Arith.GivesValue (sadd x.toInt y.toInt) (x + y).toInt :=
  ⟨_, by
    have h := Arith.gives_wrap (x.toInt + y.toInt)
    rwa [← toInt_ofInt_eq_wrapS32, BitVec.ofInt_add, BitVec.ofInt_toInt, BitVec.ofInt_toInt] at h⟩

theorem givesValue_smul (x y : Word) : Arith.GivesValue (smul x.toInt y.toInt) (x * y).toInt :=
  ⟨_, by
    have h := Arith.gives_wrap (x.toInt * y.toInt)
    rwa [← toInt_ofInt_eq_wrapS32, BitVec.ofInt_mul, BitVec.ofInt_toInt, BitVec.ofInt_toInt] at h⟩

theorem ofInt_sub_toInt (x y : Word) : BitVec.ofInt 32 (x.toInt - y.toInt) = x - y := by
  rw [Int.sub_eq_add_neg, BitVec.ofInt_add, BitVec.ofInt_neg, BitVec.ofInt_toInt, BitVec.ofInt_toInt,
    BitVec.sub_eq_add_neg]

theorem givesValue_ssub (x y : Word) : Arith.GivesValue (ssub x.toInt y.toInt) (x - y).toInt :=
  ⟨_, by
    have h := Arith.gives_wrap (x.toInt - y.toInt)
    rwa [← toInt_ofInt_eq_wrapS32, ofInt_sub_toInt] at h⟩

theorem givesValue_sshl (x : Word) (k : Nat) : Arith.GivesValue (sshl x.toInt k) (x <<< k).toInt :=
  ⟨_, by
    have h := Arith.gives_wrap (x.toInt * 2 ^ k)
    have e : BitVec.ofInt 32 ((2 : Int) ^ k) = BitVec.ofNat 32 (2 ^ k) := by
      rw [← BitVec.ofInt_natCast]
      norm_cast
    have s : x * BitVec.ofNat 32 (2 ^ k) = x <<< k := by
      apply BitVec.eq_of_toNat_eq
      simp [BitVec.toNat_shiftLeft, Nat.shiftLeft_eq]
    rwa [← toInt_ofInt_eq_wrapS32, BitVec.ofInt_mul, BitVec.ofInt_toInt, e, s] at h⟩

theorem asr_toInt (x : Word) (k : Nat) : asr x.toInt k = (x.sshiftRight k).toInt := by
  rw [BitVec.toInt_sshiftRight, Int.shiftRight_eq_div_pow, asr]
  norm_cast

theorem givesValue_asr (x : Word) (k : Nat) :
    Arith.GivesValue (pure (asr x.toInt k) : Arith Int) (x.sshiftRight k).toInt :=
  asr_toInt x k ▸ Arith.givesValue_pure _

/-- A coefficient is the signed reading of its word. -/
theorem value_eq_word (c : Calib) (k : Coeff) : c.value k = (c.word k).toInt := by
  have sgn : ∀ {n : Nat} (x : BitVec n), n ≤ 16 → inS32 x.toInt := fun {n} x hn => by
    have h1 := x.toInt_lt
    have h2 := x.le_toInt
    have h3 : (2 : Int) ^ (n - 1) ≤ 2 ^ 31 := pow_le_pow_right₀ (by norm_num) (by omega)
    constructor <;> omega
  have uns : ∀ {n : Nat} (x : BitVec n), n ≤ 16 → inS32 (x.toNat : Int) := fun {n} x hn => by
    have h1 := x.isLt
    have h3 : 2 ^ n ≤ 2 ^ 16 := Nat.pow_le_pow_right (by norm_num) hn
    constructor <;> omega
  have hv : inS32 (c.value k) := by
    cases k <;> first | exact sgn _ (by decide) | exact uns _ (by decide)
  rw [Calib.word, toInt_ofInt_eq_wrapS32, wrapS32_of_inS32 hv]

/-- A raw reading is the signed reading of its zero extension. -/
theorem reading_eq_word {n : Nat} (x : BitVec n) (hn : n < 32) : (x.toNat : Int) = (x.setWidth 32).toInt := by
  have h := x.isLt
  have h3 : 2 ^ n ≤ 2 ^ 31 := Nat.pow_le_pow_right (by norm_num) (by omega)
  rw [BitVec.toInt_eq_toNat_of_lt] <;> rw [BitVec.toNat_setWidth, Nat.mod_eq_of_lt (by omega)]
  omega

theorem asU32_toInt (w : Word) : asU32 w.toInt = w.toNat := by
  have := w.isLt
  rw [asU32, BitVec.toInt_eq_toNat_cond]
  split <;> omega

theorem asS32_toNat (w : Word) : asS32 w.toNat = w.toInt := by
  have := w.isLt
  rw [asS32, BitVec.toInt_eq_toNat_cond]
  split <;> split <;> omega

theorem usub_toNat (x y : Word) : usub x.toNat y.toNat = (x - y).toNat := by
  have := x.isLt
  have := y.isLt
  rw [usub, BitVec.toNat_sub]
  omega

theorem umul_toNat (x y : Word) : umul x.toNat y.toNat = (x * y).toNat := by rw [umul, BitVec.toNat_mul]

theorem lsr_toNat (x : Word) (k : Nat) : lsr x.toNat k = (x >>> k).toNat := by
  rw [lsr, BitVec.toNat_ushiftRight, Nat.shiftRight_eq_div_pow]

theorem ushl_toNat (x : Word) (k : Nat) : ushl x.toNat k = (x <<< k).toNat := by
  rw [ushl, BitVec.toNat_shiftLeft, Nat.shiftLeft_eq]

theorem udiv_toNat (x y : Word) : udiv x.toNat y.toNat = (x / y).toNat := by rw [udiv, BitVec.toNat_udiv]

/-- A command under WRAP_FLAG completes with its computation's value. -/
theorem commit_wrapFlag {α : Type} {m : Arith α} {v : α} (h : m.GivesValue v) (s : State) (k : α → Bool → State)
    (hs : s.config.ovfPolicy = .wrapFlag) : ∃ b, commit m s k = .next (k v b) := by
  obtain ⟨b, hb⟩ := h
  exact ⟨b, by rw [commit_of_gives hb, hs]⟩

/-! ### In exact integers -/

/-- Where every number of `l` is in s32 the computation gives `v` without overflow; otherwise it overflows. -/
def Arith.Checks {α : Type} (m : Arith α) (v : α) (l : List Int) : Prop :=
  (allS32 l → Arith.Gives m v false) ∧ (¬ allS32 l → ∃ w, Arith.Gives m w true)

theorem Arith.checks_pure {α : Type} (v : α) : Arith.Checks (pure v : Arith α) v [] :=
  ⟨fun _ => Arith.gives_pure v, fun h => absurd (fun _ hr => by cases hr) h⟩

theorem Arith.checks_s32chk (r : Int) : Arith.Checks (s32chk r) r [r] := by
  have one : allS32 [r] ↔ inS32 r := by simp [allS32]
  have h := Arith.gives_s32chk r
  constructor
  · intro hr
    rw [one] at hr
    rwa [if_pos hr, decide_eq_true hr] at h
  · intro hr
    rw [one] at hr
    rw [decide_eq_false hr] at h
    exact ⟨_, h⟩

theorem Arith.checks_bind {α β : Type} {m : Arith α} {f : α → Arith β} {v : α} {w : β} {l k : List Int}
    (hm : Arith.Checks m v l) (hd : ∀ x, (f x).Defined) (hf : Arith.Checks (f v) w k) :
    Arith.Checks (m >>= f) w (l ++ k) := by
  have app : allS32 (l ++ k) ↔ allS32 l ∧ allS32 k := List.forall_mem_append
  constructor
  · intro h
    obtain ⟨hl, hk⟩ := app.1 h
    exact Arith.gives_bind (hm.1 hl) (hf.1 hk)
  · intro h
    by_cases hl : allS32 l
    · obtain ⟨x, hx⟩ := hf.2 fun hk => h (app.2 ⟨hl, hk⟩)
      exact ⟨x, Arith.gives_bind (hm.1 hl) hx⟩
    · obtain ⟨x, hx⟩ := hm.2 hl
      obtain ⟨y, b, hy⟩ := hd x
      exact ⟨y, by simpa using Arith.gives_bind hx hy⟩

theorem checks_sadd (a b : Int) : Arith.Checks (sadd a b) (a + b) [a + b] := Arith.checks_s32chk _
theorem checks_ssub (a b : Int) : Arith.Checks (ssub a b) (a - b) [a - b] := Arith.checks_s32chk _
theorem checks_smul (a b : Int) : Arith.Checks (smul a b) (a * b) [a * b] := Arith.checks_s32chk _
theorem checks_sshl (a : Int) (k : Nat) : Arith.Checks (sshl a k) (a * 2 ^ k) [a * 2 ^ k] := Arith.checks_s32chk _

/-- The same computation with its value and its list written another way. -/
theorem Arith.checks_of {α : Type} {m : Arith α} {v w : α} {l k : List Int} (h : Arith.Checks m v l)
    (hv : v = w) (hl : allS32 k ↔ allS32 l) : Arith.Checks m w k :=
  ⟨fun hk => hv ▸ h.1 (hl.1 hk), fun hk => h.2 fun x => hk (hl.2 x)⟩

/-- A command whose checked results all lie in s32 completes under either policy, without overflow. -/
theorem commit_inRange {α : Type} {m : Arith α} {v : α} {l : List Int} (h : m.Checks v l) (s : State)
    (k : α → Bool → State) (hl : allS32 l) : commit m s k = .next (k v false) := by
  rw [commit_of_gives (h.1 hl)]
  cases s.config.ovfPolicy <;> rfl

/-- A command one of whose checked results leaves s32 faults under FAULT and completes with the overflow mark under
WRAP_FLAG. -/
theorem commit_outOfRange {α : Type} {m : Arith α} {v : α} {l : List Int} (h : m.Checks v l) (s : State)
    (k : α → Bool → State) (hl : ¬ allS32 l) :
    (s.config.ovfPolicy = .fault → commit m s k = .fault .overflow) ∧
    (s.config.ovfPolicy = .wrapFlag → ∃ w, commit m s k = .next (k w true)) := by
  obtain ⟨w, hw⟩ := h.2 hl
  exact ⟨fun hp => by rw [commit_of_gives hw, hp]; rfl, fun hp => ⟨w, by rw [commit_of_gives hw, hp]⟩⟩

end Sys2Proof.Machine
end

