-- ==== Sys2Proof/Tests/Slice0.lean ====
section
/-! SUPPORT. The model's own tests. Expected results come from the encodings of 30_encoding.md and from the vectors and
programs of 95_test_vectors.md, named at each test; a test without a vector name is computed by hand from the rule it
cites. The second half shows, for each statement with hypotheses, states and operands that meet them. -/

namespace Sys2Proof.Tests

open Sys2Proof.Machine

-- One test at a time: many at once start more threads than a small sandbox holds.
set_option Elab.async false

/-! ### Small states -/

/-- The Bosch calibration and the humidity set of 95_test_vectors.md. -/
def bosch : Calib :=
  { t1 := 27504, t2 := 26435, t3 := -1000, p1 := 36477, p2 := -10685, p3 := 3024, p4 := 2855, p5 := 140, p6 := -7,
    p7 := 15500, p8 := -14600, p9 := 6000, h1 := 75, h2 := 362, h3 := 0, h4 := 313, h5 := 50, h6 := 30 }

/-- An engine with CALV, RAWV and TFV set, coefficients `c` and the given T_FINE and readings. -/
def engine (c : Calib) (tf : Int) (adcT adcP adcH : Nat) : State :=
  { State.reset with
    status := 0x00000007#32, calib := c, tFine := BitVec.ofInt 32 tf
    adcT := BitVec.ofNat 20 adcT, adcP := BitVec.ofNat 20 adcP, adcH := BitVec.ofNat 16 adcH }

/-- The state of vectors T-1, P-1 and H-1. -/
def sample : State := engine bosch 128422 519888 415148 28000

/-- Vector T-10: `smul(131071, 32767)` wraps. -/
def hotT : State := engine { Calib.zero with t2 := 32767 } 0 1048575 0 0

/-- Vector P-9: a negative divisor through overflow. -/
def hotP : State := engine { bosch with p1 := 65535, p2 := -32768 } 0 0 415148 0

/-- Vector H-8: overflow, then clamped. -/
def hotH : State := engine { bosch with h2 := 32767, h3 := 255, h6 := 127 } 128422 0 0 65535

/-- The state after reset with the given SRF bytes. -/
def srfState (l : List (Byte × Byte)) : State :=
  l.foldl (fun s x => hostWrite x.1 x.2 s) State.reset

/-- `s` with the actions of agent 0 to come. -/
def driven (s : State) (l : List HostAction) : State := { s with schedule := l.map (.host 0) }

/-- `s` under `OVF_POLICY = FAULT`. -/
def strict (s : State) : State := withPolicy s .fault

/-- A number of a next state. -/
def seen {α : Type} (f : State → α) (a : Answer) : Option α := (nextOf a).map f

/-- An answer that holds a next state is one. -/
theorem next_of_isSome {a : Answer} (h : (nextOf a).isSome = true) : ∃ t, a = .next t := by
  cases a with
  | next t => exact ⟨t, rfl⟩
  | fault f => cases h
  | refused r => cases h

/-! ### Well-formedness, decoding and encoding -/

theorem test_wf_refuses_listed_byte : (Instr.reserved 0x03#8).wf = false := by decide
theorem test_wf_refuses_last_listed_byte : (Instr.reserved 0x06#8).wf = false := by decide
theorem test_wf_accepts_low_reserved : (Instr.reserved 0x07#8).wf = true := by decide
theorem test_wf_accepts_high_reserved : (Instr.reserved 0x13#8).wf = true := by decide
theorem test_wf_accepts_listed : [Instr.nop, .ldcal, .ldraw, .cmpt, .cmpp, .cmph, .clrs].all Instr.wf = true := by decide

/-- RSV = 0000, OP = 0000..0110 (R57), vectors E-1 to E-7. -/
theorem test_decode_nop : decode [0b00000000#8] = .ok (.nop, []) := rfl
theorem test_decode_ldcal : decode [0b00000001#8] = .ok (.ldcal, []) := rfl
theorem test_decode_ldraw : decode [0b00000010#8] = .ok (.ldraw, []) := rfl
theorem test_decode_cmpt : decode [0b00000011#8] = .ok (.cmpt, []) := rfl
theorem test_decode_cmpp : decode [0b00000100#8] = .ok (.cmpp, []) := rfl
theorem test_decode_cmph : decode [0b00000101#8] = .ok (.cmph, []) := rfl
theorem test_decode_clrs : decode [0b00000110#8] = .ok (.clrs, []) := rfl
/-- E-11: not CMPT. -/
theorem test_decode_rsv_not_zero : decode [0b00010011#8] = .ok (.reserved 0x13#8, []) := rfl
/-- E-9. -/
theorem test_decode_op_not_listed : decode [0b00001111#8] = .ok (.reserved 0x0F#8, []) := rfl
/-- R56: one byte is taken, whatever follows. -/
theorem test_decode_takes_one_byte : decode [0x05#8, 0x06#8] = .ok (.cmph, [0x06#8]) := rfl
theorem test_decode_rejects_no_byte : decode [] = .error .noByte := rfl
/-- R57: no two rows match one byte, and each row is what the decoder and the encoder say. -/
theorem test_rows_disjoint : opcodeRows.Pairwise fun x y => x.1 ≠ y.1 := by decide
theorem test_rows_decode : ∀ r ∈ opcodeRows, ∀ c : Byte, c &&& r.2.1 = r.1 → decodeByte c = r.2.2 := by decide +kernel
theorem test_rows_encode : ∀ r ∈ opcodeRows, encode r.2.2 = r.1 := by decide
theorem test_table_word : decodeTableWord 8 0xA5 = some (.reserved 0xA5#8) := by decide
theorem test_table_word_too_long :
    decodeTableWord 16 0x0003 = none ∧ decodeTableWord 12 0x103 = none ∧ decodeTableWord 9 0x003 = none := by decide

/-- E-4: the first step after reset runs the fetched command. -/
theorem test_fetch_word_cmpt : seen State.status (step (State.reset.withFetchWord 8 0x03)) = some 0x64#32 := by decide
/-- E-10. -/
theorem test_fetch_word_reserved : seen State.status (step (State.reset.withFetchWord 8 0x10)) = some 0x100#32 := by decide

/-! ### LDCAL and LDRAW -/

/-- F-2 and F-12: H4 from E4 and the low nibble of E5, and H6 signed. -/
theorem test_ldcal_signs :
    seen (fun t => (t.calib.value .h4, t.calib.value .h5, t.calib.value .h6))
      (exec .ldcal (srfState [(0xE4, 0x80), (0xE5, 0x05), (0xE6, 0x00), (0xE7, 0x80)])) = some (-2043, 0, -128) := by decide

/-- F-1, F-8 and F-9: the nibbles of E5, a signed and an unsigned word. -/
theorem test_ldcal_words :
    seen (fun t => (t.calib.value .h4, t.calib.value .h5, t.calib.value .t3, t.calib.value .p1))
      (exec .ldcal (srfState [(0xE4, 0x1A), (0xE5, 0x2B), (0xE6, 0x3C), (0x8C, 0x18), (0x8D, 0xFC), (0x8E, 0x7D),
        (0x8F, 0x8E)])) = some (427, 962, -1000, 36477) := by decide

/-- R-1. -/
theorem test_ldraw_sample :
    seen (fun t => (t.adcP, t.adcT, t.adcH))
      (exec .ldraw (srfState [(0xF7, 0x65), (0xF8, 0x5A), (0xF9, 0xC0), (0xFA, 0x7E), (0xFB, 0xED), (0xFD, 0x6D),
        (0xFE, 0x60)])) = some (415148, 519888, 28000) := by decide

/-- R-5, C-8: XLSB low nibbles are dropped; TFV = 0, PFAIL kept. -/
theorem test_ldraw_low_nibbles :
    seen (fun t => (t.adcP, t.adcT, t.adcH, t.status))
      (exec .ldraw { srfState [(0xF9, 0x0F), (0xFC, 0x0F), (0xFE, 0x01)] with status := 0x0F#32 }) =
      some (0, 0, 1, 0x0000000B#32) := by decide

/-! ### CMPT, CMPP and CMPH -/

/-- T-1. -/
theorem test_cmpt_sample : seen (fun t => (t.tFine, t.tOut, t.status)) (exec .cmpt sample) = some (128422, 2508, 7) := by
  decide +kernel

/-- T-10 under TRUNC. -/
theorem test_cmpt_overflow :
    seen (fun t => (t.tFine.toInt, t.tOut.toInt, t.status)) (exec .cmpt (withDivMode hotT .trunc)) =
      some (-80, -1, 0x87#32) := by decide +kernel

/-- P-1. -/
theorem test_cmpp_sample : seen (fun t => (t.pOut, t.status)) (exec .cmpp sample) = some (100656, 7) := by
  decide +kernel

/-- P-9. -/
theorem test_cmpp_overflow : seen (fun t => (t.pOut, t.status)) (exec .cmpp hotP) = some (968, 0x87#32) := by
  decide +kernel

/-- H-1. -/
theorem test_cmph_sample : seen (fun t => (t.hOut, t.status)) (exec .cmph sample) = some (44909, 7) := by
  decide +kernel

/-- H-8. -/
theorem test_cmph_overflow : seen (fun t => (t.hOut, t.status)) (exec .cmph hotH) = some (0, 0x87#32) := by
  decide +kernel

/-! ### Control and the read port -/

/-- C-2. -/
theorem test_nop : seen State.status (exec .nop { State.reset with status := 0x17#32 }) = some 0x17#32 := by decide
/-- C-1. -/
theorem test_clrs : seen State.status (exec .clrs { State.reset with status := 0x1FF#32 }) = some 0x0F#32 := by decide
/-- C-3. -/
theorem test_reserved : exec (.reserved 0xA5#8) sample = .next { sample with status := 0x107#32 } := by rfl
/-- C-4. -/
theorem test_read_signed_result : readPort { sample with tOut := -2 } 0x01#8 = 0xFFFFFFFE#32 := by decide
/-- C-5, C-6. -/
theorem test_read_coefficients : (readPort sample 0x12#8, readPort sample 0x13#8) = (0xFFFFFC18#32, 0x00008E7D#32) := by
  decide

/-- `WR16 0x8A, 0x7FFF` of program 4 (R62). -/
theorem test_wr16 : (Line.wr16 0x8A#8 0x7FFF#16).actions = [.write 0x8A#8 0xFF#8, .write 0x8B#8 0x7F#8] := by decide
/-- The command bytes of `MEASURE` (R62). -/
theorem test_measure : Line.measure.actions = [.command 2, .command 3, .command 4, .command 5] := by decide

/-- Lines of programs 1, 3 and 4 as R61 writes them, and two that are no line. -/
theorem test_read_text :
    readProgram ["WR 0xA1, 0x4B".toList, "; no action".toList, ".cmd 0x13 ; reserved".toList, "RD 0x40".toList,
      "WR16 0x8A, 0x7FFF".toList, "CMPP".toList] =
      some [.wr 0xA1 0x4B, .cmd 0x13, .rd 0x40, .wr16 0x8A 0x7FFF, .op .cmpp] := by decide +kernel

theorem test_read_text_refused :
    Line.ofWords (words "cmpp".toList []) = none ∧ Line.ofWords (words "WR 0x100, 0x00".toList []) = none := by decide +kernel

/-! ### Witnesses: commands, streams and steps -/

theorem witness_CommandStreamRoundTrip : ∀ i ∈ [Instr.cmpt, .reserved 0x07#8, .reserved 0x10#8, .reserved 0xFF#8], i.wf = true := by
  decide

theorem witness_EveryByteDecodesAsTabled : (0x10#8).toNat / 16 ≠ 0 ∧ (0x0F#8).toNat / 16 = 0 ∧ (0x06#8).toNat % 16 = 6 := by
  decide

theorem witness_StepRunsTheIssuedCommand :
    let s := driven State.reset [.command 0x03, .read 0x01]
    s.schedule = .host 0 (.command 0x03#8) :: [.host 0 (.read 0x01#8)] ∧ singleHost s.schedule = true ∧
      decode [0x03#8] = .ok (.cmpt, []) := by decide

theorem witness_StepWaitsWhenNothingArrives : State.reset.schedule = [] := rfl

/-- Two agents, the second one behind a reset. -/
theorem witness_TwoHostsAreRefused :
    let s := { sample with schedule := [.host 0 (.command 0x00#8), .reset, .host 1 (.read 0x00#8)] }
    .host 0 (.command 0x00#8) ∈ s.schedule ∧ .host 1 (.read 0x00#8) ∈ s.schedule ∧ (0 : Nat) ≠ 1 ∧
      step s = .refused .secondHost := ⟨by decide, by decide, by decide, rfl⟩

/-- The ends of the address range, one write of 0x00 among them. -/
theorem witness_HostWriteChangesOnlyItsCell :
    let s := driven (srfState [(0xFF, 0x01)]) [.write 0xFF 0x00]
    let t := driven (srfState [(0xFF, 0x01)]) [.write 0x00 0x5A]
    s.srf.wf ∧ s.schedule = .host 0 (.write 0xFF#8 0x00#8) :: [] ∧ singleHost s.schedule = true ∧
    t.srf.wf ∧ t.schedule = .host 0 (.write 0x00#8 0x5A#8) :: [] ∧ singleHost t.schedule = true := by decide +kernel

theorem witness_ReadPortAnswersAsTabled :
    ∀ idx ∈ [0x08#8, 0x0F#8, 0x22#8, 0xFF#8], (0x08 ≤ idx.toNat ∧ idx.toNat ≤ 0x0F) ∨ 0x22 ≤ idx.toNat := by decide

/-- A read before a command, as in program 2, and a read repeated. -/
theorem witness_ResultReadHasNoSideEffect :
    let s := driven sample [.read 0x00, .command 0x04]
    let t := driven sample [.read 0x04, .read 0x04]
    s.schedule = .host 0 (.read 0x00#8) :: [.host 0 (.command 0x04#8)] ∧ singleHost s.schedule = true ∧
    t.schedule = .host 0 (.read 0x04#8) :: .host 0 (.read 0x04#8) :: [] ∧ singleHost t.schedule = true := by decide

theorem witness_StepServesOneRequest : ∃ t, step (driven sample [.read 0x04]) = .next t ∧ t.received = [128422#32] :=
  ⟨_, rfl, by decide⟩

theorem witness_ResetInputResetsTheEngine :
    let s := { sample with schedule := [.reset, .host 0 (.command 0x03#8)] }
    s.schedule = .reset :: [.host 0 (.command 0x03#8)] ∧ singleHost s.schedule = true := by decide

theorem reserved_low {w : Word} (h : w.toNat < 512) (k : Nat) (hk : 9 ≤ k) : w.getLsbD k = false := by
  rw [BitVec.getLsbD, Nat.testBit_lt_two_pow (Nat.lt_of_lt_of_le h (Nat.pow_le_pow_right (Nat.succ_pos 1) hk))]

/-- A state with data that meets the invariant, and a step from it. -/
theorem witness_InvariantKeptByEveryStep :
    Inv (driven sample [.command 0x05]) ∧ ∃ t, step (driven sample [.command 0x05]) = .next t :=
  ⟨⟨by decide, reserved_low (by decide), by decide, by decide, by decide, by decide⟩, next_of_isSome (by decide +kernel)⟩

/-! ### Witnesses: control, LDCAL and LDRAW -/

theorem witness_ReservedCommandOnlySetsIll : ∀ c ∈ [0x07#8, 0x0F#8, 0x10#8, 0xFF#8], 0x07 ≤ c.toNat := by decide

/-- A blank image beside a burst is met, and both answers of the last clause: PFAIL with T_FINE = 0, and the fault with the least T_FINE under FAULT. -/
theorem witness_LdcalCornerCases :
    (∃ t, exec .ldcal State.reset = .next t) ∧
    (∀ a : Byte, (0x88#8 ≤ a ∧ a ≤ 0x9F#8) ∨ a = 0xA1#8 ∨ (0xE1#8 ≤ a ∧ a ≤ 0xE7#8) →
      srfByte (srfState [(0xA0, 0xFF), (0xF7, 0x65), (0xFE, 0x60)]) a = 0x00#8) ∧
    seen (fun u => (u.flag .pfail, u.pOut)) (andThen (exec .ldcal State.reset) (exec .cmpp)) = some (true, 0) ∧
    faultOf (andThen (exec .ldcal (strict { State.reset with tFine := 0x80000000#32 })) (exec .cmpp)) = some .overflow :=
  ⟨⟨_, rfl⟩, by decide +kernel, by decide +kernel, by decide +kernel⟩

/-- The neighbours of the regions the commands read (R42). -/
theorem witness_UnreadCellsNeverMatter :
    (∀ a ∈ [0x00#8, 0x87#8, 0xA0#8, 0xA2#8, 0xE0#8, 0xE8#8, 0xF6#8, 0xFF#8], unread a = true) ∧
    ∀ a ∈ [0x88#8, 0x9F#8, 0xA1#8, 0xE1#8, 0xE7#8, 0xF7#8, 0xFE#8], unread a = false := by decide

/-! ### Witnesses: compensation -/

/-- T-1, and T-8 with a negative number under TRUNC. -/
theorem witness_CmptResultAbsentOverflow :
    allS32 (tempChecked sample) ∧ allS32 (tempChecked (withDivMode (engine bosch 0 440000 0 0) .trunc)) := by
  decide +kernel

theorem witness_CmptOverflowOutcome :
    ¬ allS32 (tempChecked hotT) ∧ hotT.config.ovfPolicy = .wrapFlag ∧
    ¬ allS32 (tempChecked (strict hotT)) ∧ (strict hotT).config.ovfPolicy = .fault := by decide +kernel

theorem witness_MatchesVendorListing : sample.config.ovfPolicy = .wrapFlag ∧ hotP.config.ovfPolicy = .wrapFlag := by decide

/-- Two states that agree on the inputs of CMPT and on little else. -/
theorem witness_CmptIsAPureFunction :
    let s := strict { sample with status := 0, adcP := 0, tFine := 0 }
    sample.adcT = s.adcT ∧ sample.calib.t1 = s.calib.t1 ∧ sample.calib.t2 = s.calib.t2 ∧ sample.calib.t3 = s.calib.t3 ∧
      sample.config.tDivMode = s.config.tDivMode ∧ (∃ t, exec .cmpt sample = .next t) ∧ ∃ t, exec .cmpt s = .next t :=
  ⟨rfl, rfl, rfl, rfl, rfl, next_of_isSome (by decide +kernel), next_of_isSome (by decide +kernel)⟩

/-- T-8 rounds to -2 and -1; T-10 under FAULT faults in both modes. -/
theorem witness_DivisionModeSelectsTheRounding :
    seen State.tOut (exec .cmpt (withDivMode (engine bosch 0 440000 0 0) .shift)) = some (-2) ∧
    seen State.tOut (exec .cmpt (withDivMode (engine bosch 0 440000 0 0) .trunc)) = some (-1) ∧
    faultOf (exec .cmpt (withDivMode (strict hotT) .shift)) = some .overflow := by decide +kernel

/-- P-1, and the guard of P-10. -/
theorem witness_CmppResultAbsentOverflow :
    allS32 (pressExact sample).checked ∧ (pressExact sample).value = some 100656 ∧
    allS32 (pressExact { sample with calib := { bosch with p1 := 0 } }).checked := by decide +kernel

theorem witness_CmppOverflowOutcome :
    ¬ allS32 (pressExact hotP).checked ∧ hotP.config.ovfPolicy = .wrapFlag ∧
    ¬ allS32 (pressExact (strict hotP)).checked ∧ (strict hotP).config.ovfPolicy = .fault := by decide +kernel

/-- P-1, P-10 and P-12: no guard, P1 = 0, and P1 = 1 with slope -5. -/
theorem witness_DegenerateGuardFiresExactly :
    let s := engine { bosch with p1 := 0 } 128422 0 415148 0
    let t := engine { bosch with p1 := 1 } 128422 0 415148 0
    allS32 (pressExact s).checked ∧ s.calib.p1 = 0#16 ∧
    allS32 (pressExact t).checked ∧ t.calib.p1 = 1#16 ∧ (pressExact t).slope = -5 ∧
    allS32 (pressExact sample).checked ∧ (pressExact sample).divisor = 36471 := by decide +kernel

theorem witness_UnsignedReadingIsOneToOne : inS32 (-2147483648) ∧ inS32 (-1) ∧ inS32 0 ∧ inS32 2147483647 := by decide

/-- Each clause at both its quotients. -/
theorem witness_NegativeDivisorQuotients :
    pressQuotient 1840300000 (asU32 (-57448)) = 0 ∧ pressQuotient 0x7FFFFFFF (asU32 (-2147483648)) = 1 ∧
    pressQuotient 0x80000000 (asU32 (-1)) = 0 ∧ pressQuotient 0xFFFFFFFF (asU32 (-1)) = 2 ∧
    inS32 (-57448) ∧ inS32 (-2147483648) ∧ inS32 (-1) := by decide +kernel

/-- Both sides of the boundary with the divisor of P-1, for which the two forms differ by 1 (R91), and the top of the range
of d. -/
theorem witness_DivisionBranchBoundary :
    pressQuotient (umul 687194 3125) 36471 = 117763 ∧ 2 * (3125 * 687194 / 36471) = 117762 ∧
    pressQuotient (umul 687195 3125) 36471 = 117762 ∧ 2 * (3125 * 687195) / 36471 = 117763 ∧
    umul 1374389 3125 = 3125 * 1374389 ∧ umul 1374390 3125 ≠ 3125 * 1374390 := by decide +kernel

/-- H-1, H-2 and H-3: no clamp, the lower and the upper one. -/
theorem witness_CmphResultAbsentOverflow :
    let dry := engine bosch 128422 0 0 0
    let wet := engine bosch 128422 0 0 65535
    allS32 (humExact sample).checked ∧ (humExact sample).unclamped = 183947904 ∧
    allS32 (humExact dry).checked ∧ (humExact dry).unclamped < 0 ∧
    allS32 (humExact wet).checked ∧ 419430400 < (humExact wet).unclamped := by decide +kernel

theorem witness_CmphOverflowOutcome :
    ¬ allS32 (humExact hotH).checked ∧ hotH.config.ovfPolicy = .wrapFlag ∧
    ¬ allS32 (humExact (strict hotH)).checked ∧ (strict hotH).config.ovfPolicy = .fault := by decide +kernel

/-- A step that changes H_OUT, by CMPH and by the reset input. -/
theorem witness_HumidityStaysInRange :
    seen State.hOut (step (driven sample [.command 0x05])) = some 44909 ∧ sample.hOut = 0 ∧
    seen State.hOut (step { sample with hOut := 1, schedule := [.reset] }) = some 0 := by decide +kernel

/-! ### Witnesses: STATUS and whole-machine rules -/

theorem witness_OnlyOverflowUnderFaultStopsACommand :
    faultOf (step (driven (strict hotT) [.command 0x03])) = some .overflow := by
  change faultOf (exec .cmpt (driven (strict hotT) [])) = some .overflow
  decide +kernel

/-- OVF = 0 before; set by T-10, not by T-1. -/
theorem witness_PoliciesDifferOnlyOnOverflow :
    hotT.flag .ovf = false ∧ seen (·.flag .ovf) (exec .cmpt hotT) = some true ∧
    sample.flag .ovf = false ∧ seen (·.flag .ovf) (exec .cmpt sample) = some false := by decide +kernel

theorem witness_OvfIsNeverSetUnderFault :
    let s := driven (strict sample) [.command 0x04]
    s.config.ovfPolicy = .fault ∧ s.flag .ovf = false ∧ (nextOf (step s)).isSome = true := by decide +kernel

theorem witness_StaleFineTemperatureSetsOrd :
    let s := { sample with status := 0x03#32 }
    s.flag .tfv = false ∧ s.config.ovfPolicy = .wrapFlag ∧
    ∀ i ∈ [Instr.cmpp, .cmph], (nextOf (exec i { s with status := putFlag .tfv true s.status })).isSome = true := by
  decide +kernel

theorem witness_MissingInputsSetNocalAndNoraw :
    let s := { sample with status := 0#32 }
    s.flag .calv = false ∧ s.flag .rawv = false ∧ s.config.ovfPolicy = .wrapFlag ∧
    ∀ i ∈ [Instr.cmpt, .cmpp, .cmph],
      (nextOf (exec i { s with status := putFlag .calv true (putFlag .rawv true s.status) })).isSome = true := by
  decide +kernel

/-- Each kind of change: a field set, a field cleared. -/
theorem witness_StatusFieldsChangeOnlyAsTabled :
    seen (·.flag .tfv) (exec .ldcal sample) = some false ∧ sample.flag .tfv = true ∧
    seen (·.flag .ill) (exec (.reserved 0x07#8) sample) = some true ∧ sample.flag .ill = false := by decide

theorem witness_StickyBitsStaySet :
    let s := driven { sample with status := 0x1F7#32 } [.command 0x01]
    (∀ f ∈ [Flag.ord, .nocal, .noraw, .ovf, .ill], f.sticky = true ∧ s.flag f = true) ∧
    (nextOf (step s)).isSome = true ∧ s.schedule.head? = some (.host 0 (.command 0x01#8)) ∧
    decodeByte 0x01#8 ≠ .clrs := by decide

/-- A schedule served whole, after which all three bits are 1. -/
theorem witness_ValidityBitsTellWhatHasRun :
    let q := [Request.host 0 (.command 0x01#8), .host 0 (.command 0x02#8), .host 0 (.command 0x03#8)]
    State.reset.flag .calv = false ∧ State.reset.flag .rawv = false ∧ State.reset.flag .tfv = false ∧
    seen State.status (Sys2Proof.core.run q.length { State.reset with schedule := q }) = some 0x07#32 := by decide +kernel

theorem witness_EachRegisterHasItsWriters :
    seen (fun t => (t.tOut, t.tFine)) (exec .cmpt sample) = some (2508, 128422) ∧ sample.tOut = 0 := by decide +kernel

/-- Two states that agree on the inputs of CMPP and CMPH and on little else. -/
theorem witness_CompensationReadsOnlyItsInputs :
    let s := strict { sample with status := 0, adcT := 0, tOut := 5, calib := { bosch with t1 := 0 } }
    s.tFine = sample.tFine ∧ s.adcP = sample.adcP ∧ s.adcH = sample.adcH ∧
    ∀ i ∈ [Instr.cmpp, .cmph], (nextOf (exec i s)).isSome = true ∧ (nextOf (exec i sample)).isSome = true := by
  decide +kernel

theorem witness_WrapFlagRules :
    sample.config.ovfPolicy = .wrapFlag ∧ singleHost (driven sample [.command 0x03, .read 0x01]).schedule = true := by
  decide

theorem witness_LdcalMakesFineTemperatureStale :
    sample.flag .tfv = true ∧
    (nextOf (andThen (exec .ldcal sample) (exec .cmpp))).isSome = true ∧
    (nextOf (andThen (exec .ldcal sample) (exec .cmph))).isSome = true := by decide +kernel

theorem witness_PhasesFollowTheCommands :
    seen State.phase (exec .ldcal State.reset) = some .ready ∧
    seen State.phase (exec .ldraw { State.reset with status := 0x01#32 }) = some .sampled ∧
    ({ State.reset with status := 0x01#32 } : State).phase = .ready ∧
    seen State.phase (exec .cmpt { sample with status := 0x03#32 }) = some .compensated ∧
    ({ sample with status := 0x03#32 } : State).phase = .sampled ∧ sample.phase = .compensated := by decide +kernel

/-- The ends of s32, and the numbers next to them. -/
theorem witness_SignedArithmeticRule :
    inS32 (-2147483648) ∧ inS32 2147483647 ∧ ¬ inS32 (-2147483649) ∧ ¬ inS32 2147483648 := by decide

end Sys2Proof.Tests
end

/-! ### What a command and a step can answer, and what they keep -/

namespace Sys2Proof.Machine

/-- A command that ends with `commit` completes, or it faults with an overflow under FAULT (00_scope.md R14). -/
theorem commit_answers {α : Type} {m : Arith α} (hm : m.Defined) (s : State) (k : α → Bool → State) :
    (∃ t, commit m s k = .next t) ∨ (commit m s k = .fault .overflow ∧ s.config.ovfPolicy = .fault) := by
  obtain ⟨v, b, hv⟩ := hm
  rw [commit_of_gives hv]
  cases s.config.ovfPolicy with
  | wrapFlag => exact .inl ⟨_, rfl⟩
  | fault =>
    cases b with
    | false => exact .inl ⟨_, rfl⟩
    | true => exact .inr ⟨rfl, rfl⟩

/-- Everything a command can answer. -/
theorem exec_answers (i : Instr) (s : State) :
    (∃ t, exec i s = .next t) ∨ (exec i s = .fault .overflow ∧ s.config.ovfPolicy = .fault) := by
  cases i with
  | cmpt => exact commit_answers (temperature_defined ..) s _
  | cmpp => exact commit_answers (pressure_defined ..) s _
  | cmph => exact commit_answers (humidity_defined ..) s _
  | nop | ldcal | ldraw | clrs | reserved => exact .inl ⟨_, rfl⟩

theorem exec_wrapFlag_completes (i : Instr) {s : State} (hs : s.config.ovfPolicy = .wrapFlag) :
    ∃ t, exec i s = .next t :=
  (exec_answers i s).resolve_right fun ⟨_, hf⟩ => by rw [hs] at hf; cases hf

/-- No command touches the parameters, the schedule or the host's log. -/
theorem exec_keeps_host {i : Instr} {s t : State} (h : exec i s = .next t) :
    t.schedule = s.schedule ∧ t.config = s.config ∧ t.received = s.received := by
  cases i with
  | cmpt => obtain ⟨_, _, _, rfl⟩ := execCmpt_next h; exact ⟨rfl, rfl, rfl⟩
  | cmpp => obtain ⟨_, _, _, rfl⟩ := execCmpp_next h; exact ⟨rfl, rfl, rfl⟩
  | cmph => obtain ⟨_, _, _, rfl⟩ := execCmph_next h; exact ⟨rfl, rfl, rfl⟩
  | nop | ldcal | ldraw | clrs | reserved => cases h; exact ⟨rfl, rfl, rfl⟩

theorem serve_keeps_host {r : Request} {s t : State} (h : serve r s = .next t) :
    t.schedule = s.schedule ∧ t.config = s.config ∧ ∃ l : List Word, t.received = s.received ++ l ∧ l.length ≤ 1 := by
  obtain ⟨-, rfl⟩ | ⟨_, a, v, -, rfl⟩ | ⟨_, idx, -, rfl⟩ | ⟨_, c, -, h⟩ := serve_next h
  · exact ⟨rfl, rfl, [], by simp, by simp⟩
  · exact ⟨rfl, rfl, [], by simp, by simp⟩
  · exact ⟨rfl, rfl, [readPort s idx], rfl, Nat.le_refl 1⟩
  · obtain ⟨hq, hc, hl⟩ := exec_keeps_host h
    exact ⟨hq, hc, [], by simp [hl], by simp⟩

theorem step_keeps_host {s t : State} (h : step s = .next t) :
    t.schedule = s.schedule.tail ∧ t.config = s.config ∧
      ∃ l : List Word, t.received = s.received ++ l ∧ l.length ≤ 1 := by
  obtain ⟨hq, rfl⟩ | ⟨r, rest, hq, -, h⟩ := step_next h
  · exact ⟨by rw [hq]; rfl, rfl, [], by simp, by simp⟩
  · obtain ⟨hq', hc, hl⟩ := serve_keeps_host h
    exact ⟨by rw [hq', hq]; rfl, hc, hl⟩

/-- Settles O11: serving a request keeps the schedule that no longer holds it. -/
theorem stepServesOneRequest : Obligations.StepServesOneRequest := fun _ _ h => step_keeps_host h

/-! ### Runs -/

theorem serve_wrapFlag_completes (r : Request) {s : State} (hs : s.config.ovfPolicy = .wrapFlag) :
    ∃ t, serve r s = .next t := by
  match r with
  | .reset => exact ⟨_, rfl⟩
  | .host _ (.write a v) => exact ⟨_, rfl⟩
  | .host _ (.read idx) => exact ⟨_, rfl⟩
  | .host _ (.command c) => exact exec_wrapFlag_completes (decodeByte c) hs

theorem step_wrapFlag_completes {s : State} (hs : s.config.ovfPolicy = .wrapFlag)
    (hq : singleHost s.schedule = true) : ∃ t, step s = .next t := by
  rw [step, if_pos hq]
  split
  · exact ⟨s, rfl⟩
  · exact serve_wrapFlag_completes _ hs

theorem singleHost_list_tail {q : List Request} (h : singleHost q = true) : singleHost q.tail = true := by
  cases q with
  | nil => exact h
  | cons r q => exact singleHost_tail h

theorem run_succ (n : Nat) (s : State) :
    Sys2Proof.core.run (n + 1) s = andThen (step s) (Sys2Proof.core.run n) := by
  simp only [Host.Core.run, Host.Check.core_step]
  cases step s <;> rfl

theorem run_succ_of_next {s t : State} (h : step s = .next t) (n : Nat) :
    Sys2Proof.core.run (n + 1) s = Sys2Proof.core.run n t := by
  rw [run_succ, h]; rfl

theorem run_succ_of_fault {s : State} {f : Fault} (h : step s = .fault f) (n : Nat) :
    Sys2Proof.core.run (n + 1) s = .fault f := by
  rw [run_succ, h]; rfl

/-- Settles O54, by induction on the number of steps: each leaves a one-host schedule under WRAP_FLAG again. -/
theorem oneHostRunNeverStops : Obligations.OneHostRunNeverStops := by
  intro n
  induction n with
  | zero => exact fun s _ _ => ⟨s, rfl, rfl⟩
  | succ n ih =>
    intro s hs hq
    obtain ⟨u, hu⟩ := step_wrapFlag_completes hs hq
    obtain ⟨hsched, hconf, -⟩ := step_keeps_host hu
    obtain ⟨t, ht, hdrop⟩ := ih u (hconf ▸ hs) (hsched ▸ singleHost_list_tail hq)
    exact ⟨t, (run_succ_of_next hu n).trans ht, by rw [hdrop, hsched, List.drop_tail]⟩

/-- Settles O40, from what a command can answer (00_scope.md R14). -/
theorem onlyOverflowUnderFaultStopsACommand : Obligations.OnlyOverflowUnderFaultStopsACommand :=
  ⟨fun i _ hs => exec_wrapFlag_completes i hs, exec_answers, fun n _ _ h => run_succ_of_fault h n⟩

/-! ### The two overflow policies -/

/-- T_FINE, T_OUT and STATUS from what CMPT's computation gave (42_temperature.md R85). -/
def writeTemperature (s : State) (v : Int × Int) (ovf : Bool) : State :=
  { s with tFine := BitVec.ofInt 32 v.1, tOut := BitVec.ofInt 32 v.2, status := cmptStatus ovf s.status }

/-- H_OUT and STATUS from what CMPH's computation gave (44_humidity.md R102). -/
def writeHumidity (s : State) (v : Int) (ovf : Bool) : State :=
  { s with hOut := BitVec.ofInt 32 v, status := cmphStatus ovf s.status }

/-- A command's answers `a` under the two policies differ on overflow only. -/
def PoliciesDifferOnOverflow (a : OvfPolicy → Answer) : Prop :=
  ∃ t, a .wrapFlag = .next t ∧ (t.flag .ovf = true → a .fault = .fault .overflow) ∧
    (t.flag .ovf = false → a .fault = .next (withPolicy t .fault))

/-- A command that answers under both policies with OVF = 0. -/
theorem policiesDifferOnOverflow_of_next {a : OvfPolicy → Answer} {t : State} (hw : a .wrapFlag = .next t)
    (hf : a .fault = .next (withPolicy t .fault)) (ht : t.flag .ovf = false) : PoliciesDifferOnOverflow a :=
  ⟨t, hw, fun h => absurd (ht.symm.trans h) (by decide), fun _ => hf⟩

/-- A command that ends with `commit`, where `k` leaves the computation's overflow mark in OVF. -/
theorem policiesDifferOnOverflow_commit {α : Type} {m : Arith α} (hm : m.Defined) (s : State)
    (k : State → α → Bool → State)
    (hk : ∀ v b, k (withPolicy s .fault) v b = withPolicy (k (withPolicy s .wrapFlag) v b) .fault)
    (hovf : ∀ v b, (k (withPolicy s .wrapFlag) v b).flag .ovf = b) :
    PoliciesDifferOnOverflow fun p => commit m (withPolicy s p) (k (withPolicy s p)) := by
  obtain ⟨v, b, hv⟩ := hm
  refine ⟨k (withPolicy s .wrapFlag) v b, commit_of_gives hv .., ?_⟩
  have hf : commit m (withPolicy s .fault) (k (withPolicy s .fault)) =
      if b then .fault .overflow else .next (k (withPolicy s .fault) v false) := commit_of_gives hv ..
  simp only [hovf]
  cases b with
  | false => exact ⟨fun h => (nomatch h), fun _ => by rw [hf, hk]; rfl⟩
  | true => exact ⟨fun _ => hf, fun h => (nomatch h)⟩

theorem exec_policiesDifferOnOverflow (i : Instr) {s : State} (hs : s.flag .ovf = false) :
    PoliciesDifferOnOverflow fun p => exec i (withPolicy s p) := by
  rw [State.flag] at hs
  cases i with
  | cmpt =>
    exact policiesDifferOnOverflow_commit (temperature_defined s.config.tDivMode s.adcT.toNat s.calib) s
      writeTemperature (fun _ _ => rfl) fun _ _ => by simp [State.flag, withPolicy, writeTemperature, getFlag_cmptStatus, hs]
  | cmpp =>
    exact policiesDifferOnOverflow_commit (pressure_defined s.tFine.toInt s.adcP.toNat s.calib) s writePressure
      (fun _ _ => rfl) fun _ _ => by simp [State.flag, withPolicy, getFlag_cmppStatus, hs]
  | cmph =>
    exact policiesDifferOnOverflow_commit (humidity_defined s.tFine.toInt s.adcH.toNat s.calib) s writeHumidity
      (fun _ _ => rfl) fun _ _ => by simp [State.flag, withPolicy, writeHumidity, getFlag_cmphStatus, hs]
  | nop => exact policiesDifferOnOverflow_of_next rfl rfl hs
  | ldcal =>
    exact policiesDifferOnOverflow_of_next rfl rfl (by simp [State.flag, withPolicy, getFlag_ldcalStatus, hs])
  | ldraw =>
    exact policiesDifferOnOverflow_of_next rfl rfl (by simp [State.flag, withPolicy, getFlag_ldrawStatus, hs])
  | clrs =>
    exact policiesDifferOnOverflow_of_next rfl rfl (by simp [State.flag, getFlag_clrsStatus, Flag.sticky])
  | reserved c =>
    exact policiesDifferOnOverflow_of_next rfl rfl (by simp [State.flag, withPolicy, getFlag_reservedStatus, hs])

/-- Settles O41, command by command. -/
theorem policiesDifferOnlyOnOverflow : Obligations.PoliciesDifferOnlyOnOverflow :=
  ⟨rfl, fun i _ hs => exec_policiesDifferOnOverflow i hs⟩

/-! ### The arithmetic -/

/-- Settles O33: `as_s32` undoes `as_u32` on s32, so no two numbers of s32 have the same `as_u32`. -/
theorem unsignedReadingIsOneToOne : Obligations.UnsignedReadingIsOneToOne := by
  intro a ha
  have back : ∀ b : Int, inS32 b → asS32 (asU32 b) = b := fun b hb => by
    rw [asS32, asU32]
    split <;> omega
  refine ⟨?_, back a ha, ?_, fun b hb h => ?_⟩
  · rw [asU32]; omega
  · rw [asU32]; omega
  · rw [← back a ha, h, back b hb]

/-- Settles O56, from what `s32chk` gives. -/
theorem signedArithmeticRule : Obligations.SignedArithmeticRule := by
  refine ⟨fun p o r hr => ?_, fun o r hr => ⟨wrapS32 r, ?_, wrapS32_inS32 r, ?_⟩, fun o r hr => ?_,
    fun _ _ => ⟨rfl, rfl, rfl⟩, fun a k => ⟨rfl, ?_⟩⟩
  · obtain ⟨hw, hf⟩ := Arith.gives_s32chk r o
    cases p <;> simp [*]
  · simp [(Arith.gives_wrap r o).1, hr]
  · exact ⟨(r + 2147483648) / 4294967296, by unfold wrapS32; omega⟩
  · simp [(Arith.gives_wrap r o).2, hr]
  · rw [asr]
    exact_mod_cast (Rat.floor_intCast_div_natCast a (2 ^ k)).symm

end Sys2Proof.Machine

/-! ### The formulas in exact integers

`Arith.FaultsOutside` follows a computation under FAULT alone, where the first overflow ends it, so that nothing is asked
of what would come after; `Arith.FaultsOutside.checks` brings the result to both policies. -/

namespace Sys2Proof.Machine

/-- Under FAULT the computation gives `v` where every number of `l` lies in s32, and faults otherwise. -/
structure Arith.FaultsOutside {α : Type} (m : Arith α) (v : α) (l : List Int) : Prop where
  eval_ok    : allS32 l → ∀ o, m.eval .fault o = .ok (v, o)
  eval_error : ¬ allS32 l → ∀ o, m.eval .fault o = .error .overflow

namespace Arith.FaultsOutside

theorem pure {α : Type} (v : α) : FaultsOutside (Pure.pure v : Arith α) v [] :=
  ⟨fun _ o => (gives_pure v o).2, fun h => absurd (fun _ hr => (nomatch hr)) h⟩

theorem of_checks {α : Type} {m : Arith α} {v : α} {l : List Int} (h : m.Checks v l) : m.FaultsOutside v l :=
  ⟨fun hl o => (h.1 hl o).2, fun hl o => let ⟨_, hw⟩ := h.2 hl; (hw o).2⟩

/-- An overflow in either part is an overflow of the whole; nothing need be known of the second part after one in the
first. -/
theorem bind {α β : Type} {m : Arith α} {f : α → Arith β} {v : α} {w : β} {l k : List Int}
    (hm : m.FaultsOutside v l) (hf : (f v).FaultsOutside w k) : (m >>= f).FaultsOutside w (l ++ k) := by
  have run : ∀ o, (m >>= f).eval .fault o = (m.eval .fault o).bind fun r => (f r.1).eval .fault r.2 := fun _ => rfl
  constructor <;> rw [allS32, List.forall_mem_append]
  · rintro ⟨hl, hk⟩ o
    rw [run, hm.eval_ok hl]
    exact hf.eval_ok hk o
  · intro h o
    rw [run]
    by_cases hl : allS32 l
    · rw [hm.eval_ok hl]
      exact hf.eval_error (fun hk => h ⟨hl, hk⟩) o
    · rw [hm.eval_error hl]
      rfl

theorem congr {α : Type} {m : Arith α} {v : α} {l k : List Int} (h : m.FaultsOutside v l)
    (hl : allS32 l ↔ allS32 k) : m.FaultsOutside v k :=
  ⟨fun hk => h.eval_ok (hl.2 hk), fun hk => h.eval_error fun x => hk (hl.1 x)⟩

theorem sadd {a b : Int} : (sadd a b).FaultsOutside (a + b) [a + b] := of_checks (checks_sadd a b)
theorem ssub {a b : Int} : (ssub a b).FaultsOutside (a - b) [a - b] := of_checks (checks_ssub a b)
theorem smul {a b : Int} : (smul a b).FaultsOutside (a * b) [a * b] := of_checks (checks_smul a b)

theorem smul_comm {a b : Int} : (Machine.smul a b).FaultsOutside (b * a) [b * a] := Int.mul_comm a b ▸ smul

theorem sshl {a : Int} {k : Nat} : (sshl a k).FaultsOutside (2 ^ k * a) [2 ^ k * a] :=
  Int.mul_comm .. ▸ of_checks (checks_sshl a k)

/-- A computation that gives something and faults as `l` says is checked by `l`. -/
theorem checks {α : Type} {m : Arith α} {v : α} {l : List Int} (h : m.FaultsOutside v l) (hm : m.Defined) :
    m.Checks v l := by
  obtain ⟨w, b, hw⟩ := hm
  have under_fault := (hw false).2
  refine ⟨fun hl => ?_, fun hl => ?_⟩ <;> cases b
  · rw [h.eval_ok hl] at under_fault
    obtain rfl : v = w := by simpa using under_fault
    exact hw
  · rw [h.eval_ok hl] at under_fault
    cases under_fault
  · rw [h.eval_error hl] at under_fault
    cases under_fault
  · exact ⟨w, hw⟩

end Arith.FaultsOutside

/-! #### Temperature (42_temperature.md R80 to R83) -/

theorem tempTerm1_faultsOutside (adcT t1 t2 : Int) :
    (tempTerm1 adcT t1 t2).FaultsOutside ((adcT / 8 - 2 * t1) * t2 / 2048)
      [2 * t1, adcT / 8 - 2 * t1, (adcT / 8 - 2 * t1) * t2] :=
  .bind .sshl (.bind .ssub (.bind .smul (.pure _)))

theorem tempTerm2_faultsOutside (adcT t1 t3 : Int) :
    (tempTerm2 adcT t1 t3).FaultsOutside ((adcT / 16 - t1) * (adcT / 16 - t1) / 4096 * t3 / 16384)
      [adcT / 16 - t1, (adcT / 16 - t1) * (adcT / 16 - t1), (adcT / 16 - t1) * (adcT / 16 - t1) / 4096 * t3] :=
  .bind .ssub (.bind .smul (.bind .smul (.pure _)))

theorem fineTemp_faultsOutside (adcT t1 t2 t3 : Int) :
    (fineTemp adcT t1 t2 t3).FaultsOutside (exactFine adcT t1 t2 t3)
      [2 * t1, adcT / 8 - 2 * t1, (adcT / 8 - 2 * t1) * t2, adcT / 16 - t1, (adcT / 16 - t1) * (adcT / 16 - t1),
        (adcT / 16 - t1) * (adcT / 16 - t1) / 4096 * t3, exactFine adcT t1 t2 t3] :=
  .bind (tempTerm1_faultsOutside ..) (.bind (tempTerm2_faultsOutside ..) .sadd)

theorem tempOutput_faultsOutside (mode : TDivMode) (tf : Int) :
    (tempOutput mode tf).FaultsOutside (tempDiv mode (5 * tf + 128)) [5 * tf, 5 * tf + 128] :=
  .bind .smul_comm (.bind .sadd (.pure _))

theorem temperature_checks (mode : TDivMode) (adcT : Int) (c : Calib) :
    (temperature mode adcT c).Checks
      (exactFine adcT (c.value .t1) (c.value .t2) (c.value .t3),
        tempDiv mode (5 * exactFine adcT (c.value .t1) (c.value .t2) (c.value .t3) + 128))
      (exactTempChecked adcT (c.value .t1) (c.value .t2) (c.value .t3)) :=
  Arith.FaultsOutside.checks
    (.bind (fineTemp_faultsOutside ..) (.bind (tempOutput_faultsOutside ..) (.pure _))) (temperature_defined ..)

/-! #### Humidity (44_humidity.md R97 to R100) -/

theorem humA_faultsOutside (v adcH h4 h5 : Int) :
    (humA v adcH h4 h5).FaultsOutside ((16384 * adcH - 1048576 * h4 - h5 * v + 16384) / 32768)
      [16384 * adcH, 1048576 * h4, 16384 * adcH - 1048576 * h4, h5 * v, 16384 * adcH - 1048576 * h4 - h5 * v,
        16384 * adcH - 1048576 * h4 - h5 * v + 16384] :=
  .bind .sshl (.bind .sshl (.bind .ssub (.bind .smul (.bind .ssub (.bind .sadd (.pure _))))))

theorem humB_faultsOutside (v h2 h3 h6 : Int) :
    (humB v h2 h3 h6).FaultsOutside
      (((v * h6 / 1024 * (v * h3 / 2048 + 32768) / 1024 + 2097152) * h2 + 8192) / 16384)
      [v * h6, v * h3, v * h3 / 2048 + 32768, v * h6 / 1024 * (v * h3 / 2048 + 32768),
        v * h6 / 1024 * (v * h3 / 2048 + 32768) / 1024 + 2097152,
        (v * h6 / 1024 * (v * h3 / 2048 + 32768) / 1024 + 2097152) * h2,
        (v * h6 / 1024 * (v * h3 / 2048 + 32768) / 1024 + 2097152) * h2 + 8192] :=
  .bind .smul (.bind .smul (.bind .sadd (.bind .smul (.bind .sadd (.bind .smul (.bind .sadd (.pure _)))))))

theorem humCorrect_faultsOutside (v h1 : Int) :
    (humCorrect v h1).FaultsOutside (v - v / 32768 * (v / 32768) / 128 * h1 / 16)
      [v / 32768 * (v / 32768), v / 32768 * (v / 32768) / 128 * h1,
        v - v / 32768 * (v / 32768) / 128 * h1 / 16] :=
  .bind .smul (.bind .smul .ssub)

theorem humidity_checks (tf adcH : Int) (c : Calib) :
    let e := exactHumidity tf adcH (c.value .h1) (c.value .h2) (c.value .h3) (c.value .h4) (c.value .h5) (c.value .h6)
    (humidity tf adcH c).Checks (humClamp e.unclamped / 4096) e.checked :=
  Arith.FaultsOutside.checks
    (.bind .ssub (.bind (humA_faultsOutside ..) (.bind (humB_faultsOutside ..) (.bind .smul
      (.bind (humCorrect_faultsOutside ..) (.pure _))))))
    (humidity_defined ..)

/-! #### Pressure (43_pressure.md R88 to R93) -/

theorem pressOffset_faultsOutside (v q p4 p5 p6 : Int) :
    (pressOffset v q p4 p5 p6).FaultsOutside ((q * q / 2048 * p6 + 2 * (v * p5)) / 4 + 65536 * p4)
      [q * q, q * q / 2048 * p6, v * p5, 2 * (v * p5), q * q / 2048 * p6 + 2 * (v * p5), 65536 * p4,
        (q * q / 2048 * p6 + 2 * (v * p5)) / 4 + 65536 * p4] :=
  .bind .smul (.bind .smul (.bind .smul (.bind .sshl (.bind .sadd (.bind .sshl .sadd)))))

theorem pressSlope_faultsOutside (v q p2 p3 : Int) :
    (pressSlope v q p2 p3).FaultsOutside ((p3 * (q * q / 8192) / 8 + p2 * v / 2) / 262144)
      [q * q, p3 * (q * q / 8192), p2 * v, p3 * (q * q / 8192) / 8 + p2 * v / 2] :=
  .bind .smul (.bind .smul (.bind .smul (.bind .sadd (.pure _))))

theorem pressDivisor_faultsOutside (v p1 : Int) :
    (pressDivisor v p1).FaultsOutside ((32768 + v) * p1 / 32768) [32768 + v, (32768 + v) * p1] :=
  .bind .sadd (.bind .smul (.pure _))

theorem asU32_cast (a : Int) : (asU32 a : Int) = a % 4294967296 := by
  unfold asU32
  omega

theorem umul_lt (a b : Nat) : umul a b < 4294967296 := Nat.mod_lt _ (by decide)

/-- p of R91 before the division, on an exact difference of 32-bit numbers. -/
theorem pressProduct_cast (d e : Int) :
    (umul (usub (asU32 d) (asU32 e)) 3125 : Int) = (d - e) * 3125 % 4294967296 := by
  unfold umul usub asU32
  omega

theorem pressQuotient_cast {p : Nat} (hp : p < 4294967296) (d : Nat) :
    (pressQuotient p d : Int) =
      if (p : Int) < 2147483648 then 2 * (p : Int) / d else 2 * ((p : Int) / d) % 4294967296 := by
  unfold pressQuotient
  split
  · rw [if_pos (by omega), udiv, ushl, Nat.mod_eq_of_lt (by omega)]
    push_cast
    rw [Int.mul_comm]
  · rw [if_neg (by omega), udiv, umul]
    push_cast
    rw [Int.mul_comm]

theorem pressQuotient_lt {p : Nat} (d : Nat) : pressQuotient p d < 4294967296 := by
  unfold pressQuotient
  split
  · exact Nat.lt_of_le_of_lt (Nat.div_le_self ..) (Nat.mod_lt _ (by decide))
  · exact Nat.mod_lt _ (by decide)

theorem pressDivide_faultsOutside (adcP v1 v2 : Int) :
    (pressDivide adcP v1 v2).FaultsOutside
      (pressQuotient (umul (usub (asU32 (1048576 - adcP)) (asU32 (v2 / 4096))) 3125) (asU32 v1)) [1048576 - adcP] :=
  .bind .ssub (.pure _)

/-- A number below 2^31 is its own signed reading. -/
theorem asS32_of_lt {u : Nat} (h : u < 2147483648) : asS32 u = u := by
  rw [asS32, if_neg (by omega)]

/-- The correction of R93 on a 32-bit p, as `exactPressure` writes it. -/
theorem pressCorrect_faultsOutside {p : Nat} {n : Int} (hn : (p : Int) = n) (hp : p < 4294967296) (p7 p8 p9 : Int) :
    let x := p9 * (n / 8 * (n / 8) % 4294967296 / 8192)
    let y := n / 4 * p8
    let s := if n < 2147483648 then n else n - 4294967296
    (pressCorrect p p7 p8 p9).FaultsOutside ((s + (x / 4096 + y / 8192 + p7) / 16) % 4294967296).toNat
      [x, y, x / 4096 + y / 8192, x / 4096 + y / 8192 + p7, s + (x / 4096 + y / 8192 + p7) / 16] := by
  subst hn
  intro x y s
  have hs : asS32 p = s := by
    simp only [s, asS32]
    split <;> split <;> omega
  have hx : asS32 (lsr (umul (lsr p 3) (lsr p 3)) 13) = (p : Int) / 8 * ((p : Int) / 8) % 4294967296 / 8192 := by
    rw [asS32_of_lt (by simp only [lsr, umul]; omega)]
    simp [lsr, umul]
  have hy : asS32 (lsr p 2) = (p : Int) / 4 := by
    rw [asS32_of_lt (by simp only [lsr]; omega)]
    simp [lsr]
  rw [pressCorrect, hs, hx, hy]
  exact .bind .smul (.bind .smul (.bind .sadd (.bind .sadd (.bind .sadd (.pure _)))))

theorem pressure_checks (tf adcP : Int) (c : Calib) :
    let e := exactPressure tf adcP (c.value .p1) (c.value .p2) (c.value .p3) (c.value .p4) (c.value .p5) (c.value .p6)
      (c.value .p7) (c.value .p8) (c.value .p9)
    (pressure tf adcP c).Checks e.value e.checked := by
  refine Arith.FaultsOutside.checks ?_ (pressure_defined ..)
  unfold exactPressure
  extract_lets v q o off sum slope divisor before p d p' s x y corr
  have stages : ∀ {w k}, (if divisor = 0 then Pure.pure none else
        pressDivide adcP divisor off >>= fun p => pressCorrect p (c.value .p7) (c.value .p8) (c.value .p9) >>= fun p =>
          Pure.pure (some p) : Arith (Option Nat)).FaultsOutside w k →
      (pressure tf adcP c).FaultsOutside w (before ++ k) := fun h =>
    .congr (.bind (v := v) (l := [v]) .ssub (.bind (pressOffset_faultsOutside ..) (.bind (pressSlope_faultsOutside ..)
      (.bind (pressDivisor_faultsOutside ..) h)))) (by
      simp only [allS32, before, List.forall_mem_append, List.forall_mem_cons]
      tauto)
  split
  · next hd =>
    rw [← List.append_nil before]
    exact stages (if_pos hd ▸ .pure none)
  · next hd =>
    refine stages ?_
    rw [if_neg hd]
    have hp' : (pressQuotient (umul (usub (asU32 (1048576 - adcP)) (asU32 (off / 4096))) 3125) (asU32 divisor) : Int) =
        p' := by
      rw [pressQuotient_cast (umul_lt ..), pressProduct_cast, asU32_cast]
    exact .bind (pressDivide_faultsOutside ..)
      (.bind (pressCorrect_faultsOutside hp' (pressQuotient_lt _) ..) (.pure _))

/-! #### The outcome of an overflow (00_scope.md R12, R14) -/

theorem onlyTemp_writeTemperature (s : State) (v : Int × Int) (o : Bool) : onlyTemp s (writeTemperature s v o) :=
  ⟨rfl, fun _ hk => cmptStatus_reserved _ hk o⟩

theorem onlyPress_writePressure (s : State) (p : Option Nat) (o : Bool) : onlyPress s (writePressure s p o) :=
  ⟨rfl, fun _ hk => cmppStatus_reserved _ hk _ o⟩

theorem onlyHum_writeHumidity (s : State) (v : Int) (o : Bool) : onlyHum s (writeHumidity s v o) :=
  ⟨rfl, fun _ hk => cmphStatus_reserved _ hk o⟩

/-- Settles O25: the results that `s32chk` sees are the listed ones, and one of them leaves s32. -/
theorem cmptOverflowOutcome : Obligations.CmptOverflowOutcome := by
  intro s hs
  obtain ⟨faults, wraps⟩ :=
    commit_outOfRange (temperature_checks s.config.tDivMode s.adcT.toNat s.calib) s (writeTemperature s) hs
  refine ⟨faults, fun hp => ?_⟩
  obtain ⟨v, hv⟩ := wraps hp
  refine ⟨_, hv, onlyTemp_writeTemperature s v true, ?_, ?_⟩ <;>
    simp [State.flag, writeTemperature, getFlag_cmptStatus]

/-- Settles O30: the results that `s32chk` sees are the listed ones, and one of them leaves s32. -/
theorem cmppOverflowOutcome : Obligations.CmppOverflowOutcome := by
  intro s hs
  obtain ⟨faults, wraps⟩ :=
    commit_outOfRange (pressure_checks s.tFine.toInt s.adcP.toNat s.calib) s (writePressure s) hs
  refine ⟨faults, fun hp => ?_⟩
  obtain ⟨p, h⟩ := wraps hp
  exact ⟨_, h, onlyPress_writePressure s p true, by simp [State.flag, getFlag_cmppStatus]⟩

/-- Settles O37: the results that `s32chk` sees are the listed ones, and one of them leaves s32. -/
theorem cmphOverflowOutcome : Obligations.CmphOverflowOutcome := by
  intro s hs
  obtain ⟨faults, wraps⟩ :=
    commit_outOfRange (humidity_checks s.tFine.toInt s.adcH.toNat s.calib) s (writeHumidity s) hs
  refine ⟨faults, fun hp => ?_⟩
  obtain ⟨v, h⟩ := wraps hp
  exact ⟨_, h, onlyHum_writeHumidity s v true, by simp [State.flag, writeHumidity, getFlag_cmphStatus]⟩

end Sys2Proof.Machine

/-! ### The formulas on 32-bit registers that wrap

On the signed readings of words each computation gives the signed reading of what the vendor's listing computes
(notes/assumptions/11.md): one lemma per formula of the spec, chained by `givesValue_bind`. -/

namespace Sys2Proof.Machine

namespace Arith

theorem sadd_word {a b : Int} {x y : Word} (ha : a = x.toInt) (hb : b = y.toInt) :
    (sadd a b).GivesValue (x + y).toInt := ha ▸ hb ▸ givesValue_sadd x y

theorem ssub_word {a b : Int} {x y : Word} (ha : a = x.toInt) (hb : b = y.toInt) :
    (ssub a b).GivesValue (x - y).toInt := ha ▸ hb ▸ givesValue_ssub x y

theorem smul_word {a b : Int} {x y : Word} (ha : a = x.toInt) (hb : b = y.toInt) :
    (smul a b).GivesValue (x * y).toInt := ha ▸ hb ▸ givesValue_smul x y

end Arith

open Arith (givesValue_bind givesValue_pure sadd_word ssub_word smul_word gives_bind gives_pure gives_unique)

/-! #### Temperature (42_temperature.md R80 to R84) -/

theorem tempTerm1_word (adcT t1 t2 : Word) :
    (tempTerm1 adcT.toInt t1.toInt t2.toInt).GivesValue
      (((adcT.sshiftRight 3 - t1 <<< 1) * t2).sshiftRight 11).toInt :=
  givesValue_bind (givesValue_sshl ..) (givesValue_bind (ssub_word (asr_toInt ..) rfl)
    (givesValue_bind (givesValue_smul ..) (givesValue_asr ..)))

theorem tempTerm2_word (adcT t1 t3 : Word) :
    (tempTerm2 adcT.toInt t1.toInt t3.toInt).GivesValue
      (((((adcT.sshiftRight 4 - t1) * (adcT.sshiftRight 4 - t1)).sshiftRight 12) * t3).sshiftRight 14).toInt :=
  givesValue_bind (ssub_word (asr_toInt ..) rfl) (givesValue_bind (givesValue_smul ..)
    (givesValue_bind (smul_word (asr_toInt ..) rfl) (givesValue_asr ..)))

theorem fineTemp_word (adcT : Word) (c : Calib) :
    (fineTemp adcT.toInt (c.value .t1) (c.value .t2) (c.value .t3)).GivesValue (vendorFine adcT c).toInt := by
  rw [value_eq_word, value_eq_word, value_eq_word]
  exact givesValue_bind (tempTerm1_word ..) (givesValue_bind (tempTerm2_word ..) (givesValue_sadd ..))

/-- The number of R83 that CMPT divides by 256, on words. -/
def tempNumber (tf : Word) : Word := tf * 5#32 + 128#32

/-- What CMPT's computation gives in either division mode; whether it overflows does not depend on the mode. -/
theorem temperature_word (adcT : Word) (c : Calib) :
    ∃ b, ∀ mode, (temperature mode adcT.toInt c).Gives
      ((vendorFine adcT c).toInt, tempDiv mode (tempNumber (vendorFine adcT c)).toInt) b := by
  obtain ⟨_, fine⟩ := fineTemp_word adcT c
  obtain ⟨_, times⟩ := smul_word (b := 5) (y := 5#32) (x := vendorFine adcT c) rfl rfl
  obtain ⟨_, plus⟩ := sadd_word (b := 128) (y := 128#32) (x := vendorFine adcT c * 5#32) rfl rfl
  exact ⟨_, fun mode => gives_bind fine (gives_bind
    (gives_bind times (gives_bind plus (gives_pure _))) (gives_pure _))⟩

/-- The division of R83 on words. -/
theorem tempDiv_word (mode : TDivMode) (tf : Word) :
    tempDiv mode (tempNumber tf).toInt = (vendorTemp mode tf).toInt := by
  cases mode with
  | shift => exact asr_toInt ..
  | trunc => exact (BitVec.toInt_sdiv_of_ne_or_ne _ 256#32 (.inr (by decide))).symm

/-- CMPT in each division mode answers what the listing of R84 computes, or faults in each under FAULT. -/
theorem cmpt_answers_listing (s : State) :
    (∃ b, ∀ mode, exec .cmpt (withDivMode s mode) = .next { withDivMode s mode with
      tFine := vendorFine (s.adcT.setWidth 32) s.calib
      tOut := vendorTemp mode (vendorFine (s.adcT.setWidth 32) s.calib)
      status := cmptStatus b s.status }) ∨
    (s.config.ovfPolicy = .fault ∧ ∀ mode, exec .cmpt (withDivMode s mode) = .fault .overflow) := by
  obtain ⟨b, hb⟩ := temperature_word (s.adcT.setWidth 32) s.calib
  rw [← reading_eq_word s.adcT (by decide)] at hb
  have policy : ∀ mode, (withDivMode s mode).config.ovfPolicy = s.config.ovfPolicy := fun _ => rfl
  have answer : ∀ mode, exec .cmpt (withDivMode s mode) = _ := fun mode =>
    commit_of_gives (hb mode) (withDivMode s mode) (writeTemperature (withDivMode s mode))
  simp only [policy, tempDiv_word, writeTemperature, BitVec.ofInt_toInt] at answer
  cases hp : s.config.ovfPolicy <;> rw [hp] at answer
  case wrapFlag => exact .inl ⟨b, answer⟩
  case fault =>
    cases b with
    | false => exact .inl ⟨false, answer⟩
    | true => exact .inr ⟨rfl, answer⟩

/-- Settles O26: every checked operation gives the signed reading of the wrapped word operation. -/
theorem cmptMatchesVendorListing : Obligations.CmptMatchesVendorListing := by
  intro s hs
  obtain ⟨b, hb⟩ | ⟨hf, -⟩ := cmpt_answers_listing s
  · exact ⟨_, hb s.config.tDivMode, ⟨rfl, fun _ hk => cmptStatus_reserved _ hk b⟩, rfl, rfl⟩
  · rw [hs] at hf
    cases hf

/-- SHIFT of R7 is the floor of the quotient. -/
theorem tempDiv_shift_floor (num : Int) : tempDiv .shift num = ⌊(num : ℚ) / 256⌋ :=
  (Rat.floor_intCast_div_natCast num 256).symm

/-- TRUNC of R7 rounds the quotient toward zero. -/
theorem tempDiv_trunc_round (num : Int) :
    tempDiv .trunc num = if 0 ≤ num then ⌊(num : ℚ) / 256⌋ else ⌈(num : ℚ) / 256⌉ := by
  have hfloor : ⌊(num : ℚ) / 256⌋ = num / 256 := Rat.floor_intCast_div_natCast num 256
  have hceil : ⌈(num : ℚ) / 256⌉ = -(-num / 256) := Rat.ceil_intCast_div_natCast num 256
  rw [hfloor, hceil, tempDiv, truncDiv256]
  split
  · next h => exact Int.tdiv_eq_ediv_of_nonneg h
  · next h => rw [← Int.tdiv_eq_ediv_of_nonneg (by omega), Int.neg_tdiv, Int.neg_neg]

/-- The two divisions agree on what is not negative and on the multiples of 256. -/
theorem tempDiv_differs {num : Int} (h : tempDiv .shift num ≠ tempDiv .trunc num) : num < 0 ∧ ¬ 256 ∣ num := by
  have hs : tempDiv .shift num = num / 256 := rfl
  rw [hs, tempDiv, truncDiv256, Int.tdiv_eq_ediv] at h
  split at h <;> omega

/-- Settles O28: both modes divide the number that the listing divides. -/
theorem divisionModeSelectsTheRounding : Obligations.DivisionModeSelectsTheRounding := by
  refine ⟨rfl, fun s => ?_⟩
  obtain ⟨b, hb⟩ | ⟨hp, hf⟩ := cmpt_answers_listing s
  · refine .inl ⟨_, _, hb .shift, hb .trunc, rfl, rfl, ?_, ?_, fun hne => ?_⟩
    · rw [← tempDiv_word]
      exact tempDiv_shift_floor _
    · rw [← tempDiv_word]
      exact tempDiv_trunc_round _
    · refine tempDiv_differs fun he => hne (BitVec.eq_of_toInt_eq ?_)
      rwa [← tempDiv_word, ← tempDiv_word]
  · exact .inr ⟨hp, hf .shift, hf .trunc⟩

/-! #### Humidity (44_humidity.md R97 to R101) -/

theorem humA_word (v adcH h4 h5 : Word) :
    (humA v.toInt adcH.toInt h4.toInt h5.toInt).GivesValue
      ((adcH <<< 14 - h4 <<< 20 - h5 * v + 16384#32).sshiftRight 15).toInt :=
  givesValue_bind (givesValue_sshl ..) (givesValue_bind (givesValue_sshl ..)
    (givesValue_bind (givesValue_ssub ..) (givesValue_bind (givesValue_smul ..)
    (givesValue_bind (givesValue_ssub ..) (givesValue_bind (sadd_word rfl rfl) (givesValue_asr ..))))))

theorem humB_word (v h2 h3 h6 : Word) :
    (humB v.toInt h2.toInt h3.toInt h6.toInt).GivesValue
      (((((v * h6).sshiftRight 10 * ((v * h3).sshiftRight 11 + 32768#32)).sshiftRight 10 + 2097152#32) * h2 +
        8192#32).sshiftRight 14).toInt :=
  givesValue_bind (givesValue_smul ..) (givesValue_bind (givesValue_smul ..)
    (givesValue_bind (sadd_word (asr_toInt ..) rfl) (givesValue_bind (smul_word (asr_toInt ..) rfl)
    (givesValue_bind (sadd_word (asr_toInt ..) rfl) (givesValue_bind (givesValue_smul ..)
    (givesValue_bind (sadd_word rfl rfl) (givesValue_asr ..)))))))

theorem humCorrect_word (v h1 : Word) :
    (humCorrect v.toInt h1.toInt).GivesValue
      (v - ((v.sshiftRight 15 * v.sshiftRight 15).sshiftRight 7 * h1).sshiftRight 4).toInt :=
  givesValue_bind (smul_word (asr_toInt ..) (asr_toInt ..))
    (givesValue_bind (smul_word (asr_toInt ..) rfl) (ssub_word rfl (asr_toInt ..)))

/-- The clamp of R99 on words, as the listing of R101 writes it. -/
theorem humClamp_word (v : Word) :
    humClamp v.toInt =
      (let w := if v.slt 0#32 then 0#32 else v
        if (419430400#32).slt w then 419430400#32 else w).toInt := by
  have h0 : (0#32).toInt = 0 := rfl
  have hmax : (419430400#32).toInt = 419430400 := rfl
  simp only [humClamp, BitVec.slt_iff_toInt_lt, apply_ite BitVec.toInt, h0, hmax, gt_iff_lt]

theorem humidity_word (tf adcH : Word) (c : Calib) :
    (humidity tf.toInt adcH.toInt c).GivesValue (vendorHumidity tf adcH c).toInt := by
  rw [humidity]
  simp only [value_eq_word]
  exact givesValue_bind (ssub_word rfl rfl) (givesValue_bind (humA_word ..)
    (givesValue_bind (humB_word ..) (givesValue_bind (givesValue_smul ..)
    (givesValue_bind (humCorrect_word ..) (by rw [humClamp_word]; exact givesValue_asr ..)))))

/-- Settles O38: the computation followed on words is the listing of R101. -/
theorem cmphMatchesVendorListing : Obligations.CmphMatchesVendorListing := by
  intro s hs
  have h := humidity_word s.tFine (s.adcH.setWidth 32) s.calib
  rw [← reading_eq_word s.adcH (by decide)] at h
  obtain ⟨b, hb⟩ := commit_wrapFlag h s (writeHumidity s) hs
  exact ⟨_, hb, onlyHum_writeHumidity .., BitVec.ofInt_toInt⟩

/-! #### Pressure (43_pressure.md R88 to R95) -/

theorem pressCentre_word (tf : Word) : (pressCentre tf.toInt).GivesValue (tf.sshiftRight 1 - 64000#32).toInt :=
  ssub_word (asr_toInt ..) rfl

theorem pressOffset_word (v q p4 p5 p6 : Word) :
    (pressOffset v.toInt q.toInt p4.toInt p5.toInt p6.toInt).GivesValue
      (((q * q).sshiftRight 11 * p6 + (v * p5) <<< 1).sshiftRight 2 + p4 <<< 16).toInt :=
  givesValue_bind (givesValue_smul ..) (givesValue_bind (smul_word (asr_toInt ..) rfl)
    (givesValue_bind (givesValue_smul ..) (givesValue_bind (givesValue_sshl ..)
    (givesValue_bind (givesValue_sadd ..) (givesValue_bind (givesValue_sshl ..)
    (sadd_word (asr_toInt ..) rfl))))))

theorem pressSlope_word (v q p2 p3 : Word) :
    (pressSlope v.toInt q.toInt p2.toInt p3.toInt).GivesValue
      (((p3 * (q * q).sshiftRight 13).sshiftRight 3 + (p2 * v).sshiftRight 1).sshiftRight 18).toInt :=
  givesValue_bind (givesValue_smul ..) (givesValue_bind (smul_word rfl (asr_toInt ..))
    (givesValue_bind (givesValue_smul ..) (givesValue_bind (sadd_word (asr_toInt ..) (asr_toInt ..))
    (givesValue_asr ..))))

theorem pressDivisor_word (v p1 : Word) :
    (pressDivisor v.toInt p1.toInt).GivesValue (((32768#32 + v) * p1).sshiftRight 15).toInt :=
  givesValue_bind (sadd_word rfl rfl) (givesValue_bind (givesValue_smul ..) (givesValue_asr ..))

theorem pressQuotient_word (p d : Word) :
    pressQuotient p.toNat d.toNat = (if p < 0x80000000#32 then (p <<< 1) / d else (p / d) * 2#32).toNat := by
  have hlt : p < 0x80000000#32 ↔ p.toNat < 0x80000000 := Iff.rfl
  simp only [pressQuotient, hlt, apply_ite BitVec.toNat, ushl_toNat, udiv_toNat]
  rw [← umul_toNat]
  rfl

/-- The 32-bit p of R95 after its division. -/
def vendorQuotient (adcP v1 v2 : Word) : Word :=
  let p := ((1048576#32 - adcP) - v2.sshiftRight 12) * 3125#32
  if p < 0x80000000#32 then (p <<< 1) / v1 else (p / v1) * 2#32

theorem pressDivide_word (adcP v1 v2 : Word) :
    (pressDivide adcP.toInt v1.toInt v2.toInt).GivesValue (vendorQuotient adcP v1 v2).toNat := by
  have product : umul (usub (asU32 (1048576#32 - adcP).toInt) (asU32 (asr v2.toInt 12))) 3125 =
      (((1048576#32 - adcP) - v2.sshiftRight 12) * 3125#32).toNat := by
    rw [asr_toInt, asU32_toInt, asU32_toInt, usub_toNat, ← umul_toNat]
    rfl
  have quotient := pressQuotient_word (((1048576#32 - adcP) - v2.sshiftRight 12) * 3125#32) v1
  rw [← product, ← asU32_toInt v1] at quotient
  exact givesValue_bind (ssub_word (x := 1048576#32) rfl rfl) (quotient ▸ givesValue_pure _)

/-- The last lines of R95, on the p of its division. -/
def vendorCorrect (p p7 p8 p9 : Word) : Word :=
  p + ((p9 * (((p >>> 3) * (p >>> 3)) >>> 13)).sshiftRight 12 + ((p >>> 2) * p8).sshiftRight 13 + p7).sshiftRight 4

theorem pressCorrect_word (p p7 p8 p9 : Word) :
    (pressCorrect p.toNat p7.toInt p8.toInt p9.toInt).GivesValue (vendorCorrect p p7 p8 p9).toNat := by
  unfold pressCorrect
  rw [lsr_toNat, lsr_toNat, umul_toNat, lsr_toNat, asS32_toNat, asS32_toNat, asS32_toNat]
  exact givesValue_bind (givesValue_smul ..) (givesValue_bind (givesValue_smul ..)
    (givesValue_bind (sadd_word (asr_toInt ..) (asr_toInt ..)) (givesValue_bind (givesValue_sadd ..)
    (givesValue_bind (sadd_word rfl (asr_toInt ..)) (asU32_toInt _ ▸ givesValue_pure _)))))

theorem vendorPressure_eq (tf adcP : Word) (c : Calib) :
    vendorPressure tf adcP c =
      if vendorPressDivisor tf c = 0#32 then 0#32
      else vendorCorrect (vendorQuotient adcP (vendorPressDivisor tf c) (vendorPressOffset tf c)) (c.word .p7)
        (c.word .p8) (c.word .p9) := rfl

theorem pressure_word (tf adcP : Word) (c : Calib) :
    (pressure tf.toInt adcP.toInt c).GivesValue
      (if vendorPressDivisor tf c = 0#32 then none else some (vendorPressure tf adcP c).toNat) := by
  unfold pressure
  simp only [value_eq_word]
  refine givesValue_bind (pressCentre_word ..) ?_
  simp only [asr_toInt]
  refine givesValue_bind (pressOffset_word ..) (givesValue_bind (pressSlope_word ..)
    (givesValue_bind (pressDivisor_word ..) ?_))
  change Arith.GivesValue (if (vendorPressDivisor tf c).toInt = 0 then _ else _) _
  rw [vendorPressure_eq]
  have zero_iff : (vendorPressDivisor tf c).toInt = 0 ↔ vendorPressDivisor tf c = 0#32 := BitVec.toInt_inj (y := 0#32)
  simp only [zero_iff]
  split
  · exact givesValue_pure _
  · exact givesValue_bind (pressDivide_word ..) (givesValue_bind (pressCorrect_word ..)
      (givesValue_pure _))

/-- Settles O31: the guard fires on the listing's var1, and the rest is its last lines. -/
theorem cmppMatchesVendorListing : Obligations.CmppMatchesVendorListing := by
  intro s hs
  have h := pressure_word s.tFine (s.adcP.setWidth 32) s.calib
  rw [← reading_eq_word s.adcP (by decide)] at h
  by_cases hz : vendorPressDivisor s.tFine s.calib = 0#32
  · rw [if_pos hz] at h
    obtain ⟨b, hb⟩ := commit_wrapFlag h s (writePressure s) hs
    exact ⟨_, hb, onlyPress_writePressure .., by rw [vendorPressure_eq, if_pos hz]; rfl,
      by simp [State.flag, getFlag_cmppStatus, hz]⟩
  · rw [if_neg hz] at h
    obtain ⟨b, hb⟩ := commit_wrapFlag h s (writePressure s) hs
    exact ⟨_, hb, onlyPress_writePressure .., BitVec.ofNat_toNat ..,
      by simp [State.flag, getFlag_cmppStatus, hz]⟩

/-! ### What the results depend on -/

theorem pressure_congr (tf adcP : Int) {c d : Calib} (h1 : c.p1 = d.p1) (h2 : c.p2 = d.p2) (h3 : c.p3 = d.p3)
    (h4 : c.p4 = d.p4) (h5 : c.p5 = d.p5) (h6 : c.p6 = d.p6) (h7 : c.p7 = d.p7) (h8 : c.p8 = d.p8)
    (h9 : c.p9 = d.p9) : pressure tf adcP c = pressure tf adcP d := by
  simp only [pressure, Calib.value, h1, h2, h3, h4, h5, h6, h7, h8, h9]

theorem humidity_congr (tf adcH : Int) {c d : Calib} (h1 : c.h1 = d.h1) (h2 : c.h2 = d.h2) (h3 : c.h3 = d.h3)
    (h4 : c.h4 = d.h4) (h5 : c.h5 = d.h5) (h6 : c.h6 = d.h6) : humidity tf adcH c = humidity tf adcH d := by
  simp only [humidity, Calib.value, h1, h2, h3, h4, h5, h6]

/-- Settles O49: the same inputs make the same computation, and a computation gives one value under both policies. -/
theorem compensationReadsOnlyItsInputs : Obligations.CompensationReadsOnlyItsInputs := by
  constructor
  · intro s s' t t' hf ha h1 h2 h3 h4 h5 h6 h7 h8 h9 ht ht'
    obtain ⟨p, b, hp, rfl⟩ := execCmpp_next ht
    obtain ⟨p', b', hp', rfl⟩ := execCmpp_next ht'
    rw [← hf, ← ha, ← pressure_congr _ _ h1 h2 h3 h4 h5 h6 h7 h8 h9] at hp'
    obtain ⟨rfl, -⟩ := gives_unique hp hp'
    exact ⟨rfl, by simp [State.flag, getFlag_cmppStatus]⟩
  · intro s s' t t' hf ha h1 h2 h3 h4 h5 h6 ht ht'
    obtain ⟨v, b, hv, rfl⟩ := execCmph_next ht
    obtain ⟨v', b', hv', rfl⟩ := execCmph_next ht'
    rw [← hf, ← ha, ← humidity_congr _ _ h1 h2 h3 h4 h5 h6] at hv'
    obtain ⟨rfl, -⟩ := gives_unique hv hv'
    rfl

end Sys2Proof.Machine

/-! ### What a command leaves unchanged (10_state.md R18, R25) -/

namespace Sys2Proof.Machine

/-- Going from STATUS word `w` to `w'` changes a field only as R25 lets command `i` change it. -/
def StatusTabled (i : Instr) (w w' : Word) : Prop :=
  ∀ f, getFlag f w' ≠ getFlag f w → mayBring i f (getFlag f w') = true

namespace StatusTabled
variable {i : Instr} {w w' : Word} {f : Flag} {b : Bool}

theorem refl : StatusTabled i w w := fun _ h => absurd rfl h

theorem putFlag (hb : mayBring i f b = true) (h : StatusTabled i w w') : StatusTabled i w (putFlag f b w') := by
  intro g
  rw [getFlag_putFlag]
  split
  · next hg => exact fun _ => hg ▸ hb
  · exact h g

theorem orFlag (hf : mayBring i f true = true) (h : StatusTabled i w w') : StatusTabled i w (orFlag f b w') := by
  intro g
  rw [getFlag_orFlag]
  split
  · next hg =>
    cases b with
    | true => rw [Bool.or_true]; exact fun _ => hg ▸ hf
    | false => rw [Bool.or_false]; exact h g
  · exact h g

/-- The bits that every compensation command ORs in at its end. -/
theorem orInputErrors {ovf : Bool} {w0 : Word} (hcal : mayBring i .nocal true = true)
    (hraw : mayBring i .noraw true = true) (hovf : mayBring i .ovf true = true) (h : StatusTabled i w w') :
    StatusTabled i w (orInputErrors w0 ovf w') := .orFlag hovf (.orFlag hraw (.orFlag hcal h))

end StatusTabled

theorem exec_statusTabled {i : Instr} {s t : State} (h : exec i s = .next t) : StatusTabled i s.status t.status := by
  cases i with
  | nop => cases h; exact .refl
  | ldcal => cases h; exact .putFlag rfl (.putFlag rfl .refl)
  | ldraw => cases h; exact .putFlag rfl (.putFlag rfl .refl)
  | cmpt =>
    obtain ⟨_, _, -, rfl⟩ := execCmpt_next h
    exact .orInputErrors rfl rfl rfl (.putFlag rfl .refl)
  | cmpp =>
    obtain ⟨p, _, -, rfl⟩ := execCmpp_next h
    have pfail : mayBring .cmpp .pfail p.isNone = true := by cases p <;> rfl
    exact .orInputErrors rfl rfl rfl (.orFlag rfl (.putFlag pfail .refl))
  | cmph =>
    obtain ⟨_, _, -, rfl⟩ := execCmph_next h
    exact .orInputErrors rfl rfl rfl (.orFlag rfl .refl)
  | clrs =>
    cases h
    exact .putFlag rfl (.putFlag rfl (.putFlag rfl (.putFlag rfl (.putFlag rfl .refl))))
  | reserved c => cases h; exact .putFlag rfl .refl

/-- No command changes a reserved STATUS bit (10_state.md R35). -/
theorem exec_reserved {i : Instr} {s t : State} (h : exec i s = .next t) {k : Nat} (hk : 9 ≤ k) :
    t.status.getLsbD k = s.status.getLsbD k := by
  cases i with
  | nop => cases h; rfl
  | ldcal => cases h; exact ldcalStatus_reserved _ hk
  | ldraw => cases h; exact ldrawStatus_reserved _ hk
  | cmpt => obtain ⟨_, b, -, rfl⟩ := execCmpt_next h; exact cmptStatus_reserved _ hk b
  | cmpp => obtain ⟨p, b, -, rfl⟩ := execCmpp_next h; exact cmppStatus_reserved _ hk _ b
  | cmph => obtain ⟨_, b, -, rfl⟩ := execCmph_next h; exact cmphStatus_reserved _ hk b
  | clrs => cases h; exact clrsStatus_reserved _ hk
  | reserved c => cases h; exact reservedStatus_reserved _ hk

/-- Settles O45: every STATUS computation is made of changes that R25 allows the command. -/
theorem statusFieldsChangeOnlyAsTabled : Obligations.StatusFieldsChangeOnlyAsTabled :=
  fun _ _ _ h => ⟨exec_statusTabled h, fun _ hk => exec_reserved h hk⟩

/-- Settles O48, command by command. -/
theorem eachRegisterHasItsWriters : Obligations.EachRegisterHasItsWriters := by
  intro i s t h
  cases i with
  | cmpt => obtain ⟨_, _, -, rfl⟩ := execCmpt_next h; simp [srfByte]
  | cmpp => obtain ⟨_, _, -, rfl⟩ := execCmpp_next h; simp [srfByte]
  | cmph => obtain ⟨_, _, -, rfl⟩ := execCmph_next h; simp [srfByte]
  | nop | ldcal | ldraw | clrs | reserved => cases h; simp [srfByte]

section Frame
variable {i : Instr} {s t : State} (h : exec i s = .next t)
include h

theorem exec_keeps_srf : t.srf = s.srf := by
  obtain ⟨-, -, -, -, -, -, -, -, -, -, hsrf, -⟩ := eachRegisterHasItsWriters i s t h
  exact hsrf

theorem exec_keeps_calib (hi : i ≠ .ldcal) : t.calib = s.calib := by
  obtain ⟨-, -, -, -, -, -, -, -, hcalib, -⟩ := eachRegisterHasItsWriters i s t h
  exact not_imp_comm.1 hcalib hi

theorem exec_keeps_tFine (hi : i ≠ .cmpt) : t.tFine = s.tFine := by
  obtain ⟨-, -, hfine, -⟩ := eachRegisterHasItsWriters i s t h
  exact not_imp_comm.1 hfine hi

theorem exec_keeps_pOut (hi : i ≠ .cmpp) : t.pOut = s.pOut := by
  obtain ⟨-, -, -, hpOut, -⟩ := eachRegisterHasItsWriters i s t h
  exact not_imp_comm.1 hpOut hi

theorem exec_keeps_hOut (hi : i ≠ .cmph) : t.hOut = s.hOut := by
  obtain ⟨-, -, -, -, hhOut, -⟩ := eachRegisterHasItsWriters i s t h
  exact not_imp_comm.1 hhOut hi

/-- A field that R25 does not let the command change stays. -/
theorem exec_keeps_flag {f : Flag} (hf : ∀ b, mayBring i f b = false) : t.flag f = s.flag f :=
  not_imp_comm.1 (exec_statusTabled h f) (by simp [hf])

end Frame

/-! ### The range of H_OUT (10_state.md R24) -/

theorem exec_cmph_hOut_le {s t : State} (h : exec .cmph s = .next t) : t.hOut.toNat ≤ 102400 := by
  obtain ⟨v, _, hv, rfl⟩ := execCmph_next h
  have := humidity_range hv
  simp only [BitVec.toNat_ofInt]
  omega

/-- Settles O39: CMPH clamps its result, and no other command writes H_OUT. -/
theorem humidityStaysInRange : Obligations.HumidityStaysInRange := by
  refine ⟨fun s t => exec_cmph_hOut_le, fun s t h hne => ?_⟩
  obtain ⟨-, rfl⟩ | ⟨r, rest, hq, -, h⟩ := step_next h
  · exact absurd rfl hne
  refine ⟨r, rest, hq, ?_⟩
  obtain ⟨rfl, rfl⟩ | ⟨_, _, _, rfl, rfl⟩ | ⟨_, _, rfl, rfl⟩ | ⟨k, c, rfl, h⟩ := serve_next h
  · exact .inl ⟨rfl, rfl⟩
  · exact absurd rfl hne
  · exact absurd rfl hne
  · exact .inr ⟨k, c, rfl, not_imp_comm.1 (exec_keeps_hOut h) hne⟩

/-! ### The invariant -/

/-- The invariant says nothing of what the host has scheduled and received. -/
theorem Inv.withHost {s : State} (h : Inv s) (q : List Request) (l : List Word) :
    Inv { s with schedule := q, received := l } :=
  ⟨h.srf, h.reserved, h.h4, h.h5, h.hOut, h.pfail⟩

/-- Settles O15: everything reset leaves is 0 (70_reset_and_hazards.md R121). -/
theorem resetMeetsInvariant : Obligations.ResetMeetsInvariant := fun c => {
  srf := reset_srf_wf c
  reserved := fun _ _ => BitVec.getLsbD_zero
  h4 := (by decide : inS12 Calib.zero.h4.toInt)
  h5 := (by decide : inS12 Calib.zero.h5.toInt)
  hOut := Nat.zero_le _
  pfail := fun _ => rfl }

/-- A packed 12-bit field with its top nibble filled is read as the signed 12-bit number it holds
(40_calibration_fusion.md R68, R69). -/
theorem sext_signTop12 {h : Nat} (hh : h < 4096) :
    sext 16 (signTop12 h) = if h < 2048 then (h : Int) else h - 4096 := by
  have bit11 : h &&& 0x0800 = h / 2048 % 2 * 2048 := by
    rw [show 0x0800 = 2 ^ 11 from rfl, Nat.and_two_pow, Nat.testBit_eq_decide_div_mod_eq]
    rcases Nat.mod_two_eq_zero_or_one (h / 2048) with e | e <;> simp [e]
  have fill : h ||| 0xF000 = 61440 + h := by
    rw [Nat.or_comm]
    exact (Nat.two_pow_add_eq_or_of_lt (i := 12) hh 15).symm
  rw [sext, signTop12, Nat.testBit_eq_decide_div_mod_eq, bit11, fill]
  simp only [decide_eq_true_eq]
  split <;> split <;> split <;> omega

theorem toInt_sext_signTop12 {h : Nat} (hh : h < 4096) : inS12 (BitVec.ofInt 16 (sext 16 (signTop12 h))).toInt := by
  rw [sext_signTop12 hh]
  split <;> rw [BitVec.toInt_ofInt_eq_self] <;> omega

theorem fuseH4_inS12 (s : State) : inS12 (fuseH4 s).toInt := by
  refine toInt_sext_signTop12 ?_
  have msb := (srfByte s 0xE4#8).isLt
  have nibble : (srfByte s 0xE5#8).toNat &&& 0x0F ≤ 0x0F := Nat.and_le_right
  omega

theorem fuseH5_inS12 (s : State) : inS12 (fuseH5 s).toInt := by
  refine toInt_sext_signTop12 ?_
  have msb := (srfByte s 0xE6#8).isLt
  have nibble := (srfByte s 0xE5#8).isLt
  rw [Nat.shiftRight_eq_div_pow]
  omega

/-- What LDCAL writes, or what stood there before, is a 12-bit number in H4 and in H5. -/
theorem exec_keeps_inS12 {i : Instr} {s t : State} (h : exec i s = .next t) (h4 : inS12 s.calib.h4.toInt)
    (h5 : inS12 s.calib.h5.toInt) : inS12 t.calib.h4.toInt ∧ inS12 t.calib.h5.toInt := by
  by_cases hi : i = .ldcal
  · subst hi
    cases h
    exact ⟨fuseH4_inS12 s, fuseH5_inS12 s⟩
  · rw [exec_keeps_calib h hi]
    exact ⟨h4, h5⟩

theorem exec_keeps_hOut_le {i : Instr} {s t : State} (h : exec i s = .next t) (hs : s.hOut.toNat ≤ 102400) :
    t.hOut.toNat ≤ 102400 := by
  by_cases hi : i = .cmph
  · exact exec_cmph_hOut_le (hi ▸ h)
  · rwa [exec_keeps_hOut h hi]

theorem mayBring_pfail {i : Instr} (hi : i ≠ .cmpp) (b : Bool) : mayBring i .pfail b = false := by
  cases i with
  | cmpp => exact absurd rfl hi
  | nop | ldcal | ldraw | cmpt | cmph | clrs | reserved => cases b <;> rfl

/-- CMPP sets PFAIL only where its guard stops it, and then it writes 0 to P_OUT (43_pressure.md R90). -/
theorem exec_keeps_pfail {i : Instr} {s t : State} (h : exec i s = .next t)
    (hs : s.flag .pfail = true → s.pOut = 0#32) : t.flag .pfail = true → t.pOut = 0#32 := by
  by_cases hi : i = .cmpp
  · subst hi
    obtain ⟨p, b, -, rfl⟩ := execCmpp_next h
    cases p with
    | none => exact fun _ => rfl
    | some p => simp [State.flag, getFlag_cmppStatus]
  · rwa [exec_keeps_flag h (mayBring_pfail hi), exec_keeps_pOut h hi]

theorem exec_keeps_inv {i : Instr} {s t : State} (hs : Inv s) (h : exec i s = .next t) : Inv t :=
  have ⟨h4, h5⟩ := exec_keeps_inS12 h hs.h4 hs.h5
  { srf := exec_keeps_srf h ▸ hs.srf
    reserved := fun k hk => (exec_reserved h hk).trans (hs.reserved k hk)
    h4 := h4
    h5 := h5
    hOut := exec_keeps_hOut_le h hs.hOut
    pfail := exec_keeps_pfail h hs.pfail }

theorem serve_keeps_inv {r : Request} {s t : State} (hs : Inv s) (h : serve r s = .next t) : Inv t := by
  obtain ⟨-, rfl⟩ | ⟨_, a, v, -, rfl⟩ | ⟨_, _, -, rfl⟩ | ⟨_, _, -, h⟩ := serve_next h
  · exact (resetMeetsInvariant s.config).withHost s.schedule s.received
  · exact { hs with srf := memWrite_wf hs.srf a v }
  · exact hs.withHost s.schedule _
  · exact exec_keeps_inv hs h

/-- Settles O16: the state that no longer holds the oldest request meets the invariant too, and serving keeps it. -/
theorem invariantKeptByEveryStep : Obligations.InvariantKeptByEveryStep := by
  intro s t hs h
  obtain ⟨-, rfl⟩ | ⟨r, rest, -, -, h⟩ := step_next h
  · exact hs
  · exact serve_keeps_inv (hs.withHost rest s.received) h

/-! ### OVF under FAULT (10_state.md R33) -/

theorem exec_fault_keeps_ovf {i : Instr} {s t : State} (hp : s.config.ovfPolicy = .fault) (hs : s.flag .ovf = false)
    (h : exec i s = .next t) : t.flag .ovf = false := by
  have same : withPolicy s .fault = s := by rw [withPolicy, ← hp]
  obtain ⟨u, -, faults, completes⟩ := exec_policiesDifferOnOverflow i hs
  simp only [same, h] at faults completes
  cases hu : u.flag .ovf with
  | true => cases faults hu
  | false =>
    cases completes hu
    exact hu

/-- Settles O42: under FAULT a command that completes met no overflow. -/
theorem ovfIsNeverSetUnderFault : Obligations.OvfIsNeverSetUnderFault := by
  intro s t hp hs h
  obtain ⟨-, rfl⟩ | ⟨r, rest, -, -, h⟩ := step_next h
  · exact hs
  obtain ⟨-, rfl⟩ | ⟨_, _, _, -, rfl⟩ | ⟨_, _, -, rfl⟩ | ⟨_, _, -, h⟩ := serve_next h
  · exact BitVec.getLsbD_zero
  · exact hs
  · exact hs
  · exact exec_fault_keeps_ovf (s := { s with schedule := rest }) hp hs h

/-! ### Compensation with STATUS bits missing (10_state.md R30 to R32) -/

/-- A computation that completes, completes in every state of the same policy, with the same value and mark. -/
theorem commit_next_transfer {α : Type} {m : Arith α} {s u : State} {k : α → Bool → State}
    (h : commit m s k = .next u) (s' : State) (hp : s'.config.ovfPolicy = s.config.ovfPolicy)
    (k' : α → Bool → State) : ∃ v b, u = k v b ∧ commit m s' k' = .next (k' v b) := by
  unfold commit at h ⊢
  rw [hp]
  split at h
  · next v b _ => injection h with h; exact ⟨v, b, h.symm, rfl⟩
  · cases h

/-- No compensation command reads STATUS but to write STATUS. -/
theorem compensation_ignores_status {i : Instr} (hi : i = .cmpt ∨ i = .cmpp ∨ i = .cmph) {s u : State} {w : Word}
    (h : exec i { s with status := w } = .next u) :
    ∃ t, exec i s = .next t ∧ t = { u with status := t.status } := by
  obtain rfl | rfl | rfl := hi
  · obtain ⟨v, b, rfl, ht⟩ := commit_next_transfer h s rfl (writeTemperature s)
    exact ⟨_, ht, rfl⟩
  · obtain ⟨p, b, rfl, ht⟩ := commit_next_transfer h s rfl (writePressure s)
    exact ⟨_, ht, rfl⟩
  · obtain ⟨v, b, rfl, ht⟩ := commit_next_transfer h s rfl (writeHumidity s)
    exact ⟨_, ht, rfl⟩

theorem compensation_inputErrors {i : Instr} (hi : i = .cmpt ∨ i = .cmpp ∨ i = .cmph) {s t : State}
    (h : exec i s = .next t) :
    t.flag .nocal = (s.flag .nocal || !s.flag .calv) ∧ t.flag .noraw = (s.flag .noraw || !s.flag .rawv) := by
  obtain rfl | rfl | rfl := hi
  · obtain ⟨_, _, -, rfl⟩ := execCmpt_next h
    simp [State.flag, getFlag_cmptStatus]
  · obtain ⟨_, _, -, rfl⟩ := execCmpp_next h
    simp [State.flag, getFlag_cmppStatus]
  · obtain ⟨_, _, -, rfl⟩ := execCmph_next h
    simp [State.flag, getFlag_cmphStatus]

theorem cmpp_cmph_ord {i : Instr} (hi : i = .cmpp ∨ i = .cmph) {s t : State} (h : exec i s = .next t) :
    t.flag .ord = (s.flag .ord || !s.flag .tfv) := by
  obtain rfl | rfl := hi
  · obtain ⟨_, _, -, rfl⟩ := execCmpp_next h
    simp [State.flag, getFlag_cmppStatus]
  · obtain ⟨_, _, -, rfl⟩ := execCmph_next h
    simp [State.flag, getFlag_cmphStatus]

/-- Settles O43: TFV enters the command's STATUS computation only. -/
theorem staleFineTemperatureSetsOrd : Obligations.StaleFineTemperatureSetsOrd := by
  intro i s hi htfv
  refine ⟨fun hp => exec_wrapFlag_completes i hp, fun u hu => ?_⟩
  obtain ⟨t, ht, same⟩ := compensation_ignores_status (.inr hi) hu
  have hne : i ≠ .cmpt := by rintro rfl; simp at hi
  refine ⟨t, ht, ?_, exec_keeps_tFine ht hne, ?_, ?_⟩
  · rw [cmpp_cmph_ord hi ht, htfv, Bool.not_false, Bool.or_true]
  · rw [same]
  · rw [same]

/-- Settles O44: CALV and RAWV enter the command's STATUS computation only. -/
theorem missingInputsSetNocalAndNoraw : Obligations.MissingInputsSetNocalAndNoraw := by
  intro i s hi
  refine ⟨fun hp => exec_wrapFlag_completes i hp, fun u hu => ?_⟩
  obtain ⟨t, ht, same⟩ := compensation_ignores_status hi hu
  obtain ⟨hnocal, hnoraw⟩ := compensation_inputErrors hi ht
  refine ⟨t, ht, fun hc => ?_, fun hr => ?_, ?_⟩
  · rw [hnocal, hc, Bool.not_false, Bool.or_true]
  · rw [hnoraw, hr, Bool.not_false, Bool.or_true]
  · rw [same]
    exact ⟨rfl, rfl, rfl, rfl⟩

/-! ### The validity bits (10_state.md R26 to R28) -/

theorem exec_validityBits_iff {i : Instr} {s t : State} (h : exec i s = .next t) :
    (t.flag .calv = true ↔ i = .ldcal ∨ s.flag .calv = true) ∧
    (t.flag .rawv = true ↔ i = .ldraw ∨ s.flag .rawv = true) ∧
    (t.flag .tfv = true ↔ i = .cmpt ∨ (s.flag .tfv = true ∧ i ≠ .ldraw ∧ i ≠ .ldcal)) := by
  cases i with
  | nop => cases h; simp
  | ldcal => cases h; simp [State.flag, getFlag_ldcalStatus]
  | ldraw => cases h; simp [State.flag, getFlag_ldrawStatus]
  | cmpt => obtain ⟨_, _, -, rfl⟩ := execCmpt_next h; simp [State.flag, getFlag_cmptStatus]
  | cmpp => obtain ⟨_, _, -, rfl⟩ := execCmpp_next h; simp [State.flag, getFlag_cmppStatus]
  | cmph => obtain ⟨_, _, -, rfl⟩ := execCmph_next h; simp [State.flag, getFlag_cmphStatus]
  | clrs => cases h; simp [State.flag, getFlag_clrsStatus, Flag.sticky]
  | reserved c => cases h; simp [State.flag, getFlag_reservedStatus]

@[simp] theorem issues_command (k : Nat) (c : Byte) (i : Instr) :
    issues (.host k (.command c)) i ↔ decodeByte c = i := by simp [issues]
@[simp] theorem not_issues_write (k : Nat) (a v : Byte) (i : Instr) : ¬ issues (.host k (.write a v)) i := by
  simp [issues]
@[simp] theorem not_issues_read (k : Nat) (idx : Byte) (i : Instr) : ¬ issues (.host k (.read idx)) i := by
  simp [issues]
@[simp] theorem not_issues_reset (i : Instr) : ¬ issues .reset i := by simp [issues]

/-- Serving a request that `sets` picks leaves field `f` at 1, one that `clears` picks alone leaves it at 0, and any
other leaves it as it was. -/
def FlagFollows (f : Flag) (sets clears : Request → Prop) : Prop :=
  ∀ r s t, serve r s = .next t → (t.flag f = true ↔ sets r ∨ (s.flag f = true ∧ ¬ clears r))

/-- The reset input, or a command of `l`. -/
def resetOrIssues (l : List Instr) (r : Request) : Prop := r = .reset ∨ ∃ j ∈ l, issues r j

/-- A field that command `i` sets and the commands of `l` clear follows the requests that issue them. -/
theorem flagFollows_of_exec {f : Flag} {i : Instr} {l : List Instr}
    (hf : ∀ j s t, exec j s = .next t → (t.flag f = true ↔ j = i ∨ (s.flag f = true ∧ j ∉ l))) :
    FlagFollows f (issues · i) (resetOrIssues l) := by
  intro r s t h
  obtain ⟨rfl, rfl⟩ | ⟨_, _, _, rfl, rfl⟩ | ⟨_, _, rfl, rfl⟩ | ⟨_, _, rfl, h⟩ := serve_next h
  · simp [State.flag, getFlag, resetOrIssues]
  · simp [State.flag, resetOrIssues]
  · simp [State.flag, resetOrIssues]
  · simp [hf _ s t h, resetOrIssues]

theorem flagFollows_calv : FlagFollows .calv (issues · .ldcal) (resetOrIssues []) :=
  flagFollows_of_exec fun _ _ _ h => by
    obtain ⟨hcalv, -, -⟩ := exec_validityBits_iff h
    simpa using hcalv

theorem flagFollows_rawv : FlagFollows .rawv (issues · .ldraw) (resetOrIssues []) :=
  flagFollows_of_exec fun _ _ _ h => by
    obtain ⟨-, hrawv, -⟩ := exec_validityBits_iff h
    simpa using hrawv

theorem flagFollows_tfv : FlagFollows .tfv (issues · .cmpt) (resetOrIssues [.ldraw, .ldcal]) :=
  flagFollows_of_exec fun _ _ _ h => by
    obtain ⟨-, -, htfv⟩ := exec_validityBits_iff h
    simpa using htfv

/-- A request of `q` that `sets` picks is followed by none that `clears` picks. -/
def SetLast (sets clears : Request → Prop) (q : List Request) : Prop :=
  ∃ q1 r q2, q = q1 ++ r :: q2 ∧ sets r ∧ ∀ x ∈ q2, ¬ clears x

theorem setLast_nil (sets clears : Request → Prop) : ¬ SetLast sets clears [] := by simp [SetLast]

/-- The picked request is the oldest one, or it stands in the rest. -/
theorem setLast_cons (sets clears : Request → Prop) (r : Request) (q : List Request) :
    SetLast sets clears (r :: q) ↔ (sets r ∧ ∀ x ∈ q, ¬ clears x) ∨ SetLast sets clears q := by
  constructor
  · rintro ⟨_ | ⟨_, q1⟩, x, q2, hq, hx⟩
    · cases hq; exact .inl hx
    · cases hq; exact .inr ⟨q1, x, q2, rfl, hx⟩
  · rintro (h | ⟨q1, x, q2, rfl, hx⟩)
    · exact ⟨[], r, q, rfl, h⟩
    · exact ⟨r :: q1, x, q2, rfl, hx⟩

theorem andThen_next {a : Answer} {k : State → Answer} {t : State} (h : andThen a k = .next t) :
    ∃ u, a = .next u ∧ k u = .next t := by
  cases a with
  | next u => exact ⟨u, rfl, h⟩
  | fault | refused => cases h

/-- A field that follows requests tells, after a schedule that is served whole, which of them came last. -/
theorem run_flag_iff {f : Flag} {sets clears : Request → Prop} (hf : FlagFollows f sets clears) :
    ∀ (q : List Request) (s t : State), s.schedule = q → Sys2Proof.core.run q.length s = .next t →
      (t.flag f = true ↔ SetLast sets clears q ∨ (s.flag f = true ∧ ∀ x ∈ q, ¬ clears x)) := by
  intro q
  induction q with
  | nil =>
    intro s t _ h
    cases h
    simp [setLast_nil]
  | cons r q ih =>
    intro s t hq h
    obtain ⟨u, hu, ht⟩ := andThen_next ((run_succ q.length s).symm.trans h)
    obtain ⟨he, -⟩ | ⟨r', q', hq', -, hserve⟩ := step_next hu
    · exact absurd (he.symm.trans hq) (by simp)
    obtain ⟨rfl, rfl⟩ : r = r' ∧ q = q' := by simpa using hq.symm.trans hq'
    obtain ⟨hsched, -⟩ := serve_keeps_host hserve
    have now : u.flag f = true ↔ sets r ∨ (s.flag f = true ∧ ¬ clears r) :=
      hf r { s with schedule := q } u hserve
    rw [ih u t hsched ht, setLast_cons, now, List.forall_mem_cons]
    tauto

/-- From a field at 0 only the schedule counts. -/
theorem run_flag_iff_setLast {f : Flag} {sets clears : Request → Prop} (hf : FlagFollows f sets clears)
    {s t : State} {q : List Request} (hs : s.flag f = false)
    (h : Sys2Proof.core.run q.length { s with schedule := q } = .next t) :
    t.flag f = true ↔ SetLast sets clears q := by
  have hs' : State.flag { s with schedule := q } f = false := hs
  simpa [hs'] using run_flag_iff hf q _ t rfl h

/-- Settles O47: each bit follows the requests that R26 to R28 name for it. -/
theorem validityBitsTellWhatHasRun : Obligations.ValidityBitsTellWhatHasRun := by
  intro s t q hcalv hrawv htfv h
  refine ⟨?_, ?_, ?_⟩
  · simpa [SetLast, resetOrIssues, List.forall_mem_ne'] using run_flag_iff_setLast flagFollows_calv hcalv h
  · simpa [SetLast, resetOrIssues, List.forall_mem_ne'] using run_flag_iff_setLast flagFollows_rawv hrawv h
  · simpa [SetLast, resetOrIssues] using run_flag_iff_setLast flagFollows_tfv htfv h

/-! ### The conceptual states (70_reset_and_hazards.md R131) -/

theorem phase_ne_unconfigured_iff (s : State) : s.phase ≠ .unconfigured ↔ s.flag .calv = true := by
  unfold State.phase
  split_ifs <;> simp_all

theorem phase_eq_ready_iff (s : State) : s.phase = .ready ↔ s.flag .calv = true ∧ ¬ s.flag .rawv = true := by
  unfold State.phase
  split_ifs <;> simp_all

theorem phase_eq_sampled_iff (s : State) :
    s.phase = .sampled ↔ s.flag .calv = true ∧ s.flag .rawv = true ∧ ¬ s.flag .tfv = true := by
  unfold State.phase
  split_ifs <;> simp_all

theorem phase_eq_compensated_iff (s : State) :
    s.phase = .compensated ↔ s.flag .calv = true ∧ s.flag .rawv = true ∧ s.flag .tfv = true := by
  unfold State.phase
  split_ifs <;> simp_all

/-- Settles O55, from what the commands do to the three validity bits. -/
theorem phasesFollowTheCommands : Obligations.PhasesFollowTheCommands := by
  refine ⟨fun s t h => ?_, fun s t h => ?_, fun s t h => ?_, fun i s t h => ?_⟩ <;>
    obtain ⟨hcalv, hrawv, htfv⟩ := exec_validityBits_iff h
  · rw [phase_eq_ready_iff, phase_eq_sampled_iff, hcalv, htfv]
    simp
  · rw [phase_ne_unconfigured_iff, phase_eq_sampled_iff, hcalv, hrawv, htfv]
    simp
  · rw [phase_eq_sampled_iff, phase_eq_compensated_iff, phase_eq_compensated_iff, hcalv, hrawv, htfv]
    tauto
  · rw [phase_ne_unconfigured_iff, phase_ne_unconfigured_iff, hcalv]
    exact .inr

/-! ### What a step answers -/

theorem step_cons {s : State} {r : Request} {rest : List Request} (hq : s.schedule = r :: rest)
    (hs : singleHost s.schedule = true) : step s = serve r { s with schedule := rest } := by
  rw [step, if_pos hs]
  split
  · next he => exact absurd (he.symm.trans hq) (by simp)
  · next r' rest' hq' =>
    obtain ⟨rfl, rfl⟩ : r' = r ∧ rest' = rest := by simpa using hq'.symm.trans hq
    rfl

/-- Settles O5: serving a command byte is running what it decodes to. -/
theorem stepRunsTheIssuedCommand : Obligations.StepRunsTheIssuedCommand := by
  intro s k c rest i hq hs hd
  obtain rfl : decodeByte c = i := by simpa [decode] using hd
  exact step_cons hq hs

theorem mem_issuers {k : Nat} {q : List Request} : k ∈ issuers q ↔ ∃ a, .host k a ∈ q := by
  induction q with
  | nil => simp
  | cons r q ih =>
    cases r with
    | host j a => simp [ih, exists_or, eq_comm]
    | reset => simp [ih]

/-- Two agents issue actions exactly where the schedule is not of one host. -/
theorem not_singleHost_iff (q : List Request) :
    ¬ singleHost q = true ↔ ∃ j k a b, .host j a ∈ q ∧ .host k b ∈ q ∧ j ≠ k := by
  rw [singleHost_iff]
  push Not
  simp only [mem_issuers]
  constructor
  · rintro ⟨j, ⟨a, ha⟩, k, ⟨b, hb⟩, hne⟩
    exact ⟨j, k, a, b, ha, hb, hne⟩
  · rintro ⟨j, k, a, b, ha, hb, hne⟩
    exact ⟨j, ⟨a, ha⟩, k, ⟨b, hb⟩, hne⟩

theorem exec_not_refused (i : Instr) (s : State) (r : Refusal) : exec i s ≠ .refused r := by
  obtain ⟨t, h⟩ | ⟨h, -⟩ := exec_answers i s <;> rw [h] <;> nofun

theorem serve_not_refused (q : Request) (s : State) (r : Refusal) : serve q s ≠ .refused r := by
  match q with
  | .reset | .host _ (.write ..) | .host _ (.read _) => nofun
  | .host _ (.command c) => exact exec_not_refused (decodeByte c) s r

theorem step_refused_iff (s : State) (r : Refusal) :
    step s = .refused r ↔ r = .secondHost ∧ ¬ singleHost s.schedule = true := by
  unfold step
  split
  · next hs =>
    simp only [hs, not_true, and_false, iff_false]
    split
    · nofun
    · next rest _ => exact fun h => serve_not_refused _ _ _ h
  · next hs => simp [hs, eq_comm]

/-- Settles O7: a step is refused where the schedule is not of one host, and no request is refused when served. -/
theorem twoHostsAreRefused : Obligations.TwoHostsAreRefused := by
  refine ⟨fun s j k a b hj hk hne => ?_, fun s r h => ?_⟩
  · exact (step_refused_iff ..).2 ⟨rfl, (not_singleHost_iff _).2 ⟨j, k, a, b, hj, hk, hne⟩⟩
  · obtain ⟨hr, hs⟩ := (step_refused_iff ..).1 h
    exact ⟨hr, (not_singleHost_iff _).1 hs⟩

/-! ### The read port (10_state.md R39) -/

theorem ofInt_toNat {n : Nat} (x : BitVec n) : BitVec.ofInt 32 x.toNat = x.setWidth 32 := by
  rw [BitVec.ofInt_natCast, BitVec.ofNat_toNat]

theorem Reg.ofIndex_reserved :
    ∀ idx : Byte, (0x08 ≤ idx.toNat ∧ idx.toNat ≤ 0x0F) ∨ 0x22 ≤ idx.toNat → Reg.ofIndex idx = none := by
  decide

/-- Settles O9: an unsigned coefficient is zero-extended, a signed one sign-extended by definition. -/
theorem readPortAnswersAsTabled : Obligations.ReadPortAnswersAsTabled := by
  intro s
  refine ⟨rfl, rfl, rfl, rfl, rfl, rfl, rfl, rfl, ofInt_toNat _, rfl, rfl, ofInt_toNat _, rfl, rfl, rfl, rfl, rfl,
    rfl, rfl, rfl, ofInt_toNat _, rfl, ofInt_toNat _, rfl, rfl, rfl, fun idx h => ?_⟩
  rw [readPort, Reg.ofIndex_reserved idx h]

/-! ### Reserved command bytes (30_encoding.md R58) -/

theorem decodeByte_eq_reserved_iff : ∀ c : Byte, decodeByte c = .reserved c ↔ 0x07 ≤ c.toNat := by decide

/-- The seven bytes below 0x07 are listed, and the 249 above are not. -/
theorem reservedBytes_count :
    ((List.range 256).filter fun n => decodeByte (BitVec.ofNat 8 n) = .reserved (BitVec.ofNat 8 n)).length = 249 := by
  have split : List.range 256 = List.range 7 ++ (List.range 249).map (7 + ·) := List.range_add (n := 7) (m := 249)
  have none_below : ∀ n ∈ List.range 7, ¬ 0x07 ≤ (BitVec.ofNat 8 n).toNat := by decide
  have all_above : ∀ n ∈ (List.range 249).map (7 + ·), 0x07 ≤ (BitVec.ofNat 8 n).toNat := by
    simp only [List.forall_mem_map, List.mem_range, BitVec.toNat_ofNat]
    omega
  rw [split, List.filter_append, List.filter_eq_nil_iff.2, List.filter_eq_self.2, List.nil_append, List.length_map,
    List.length_range]
  · simpa [decodeByte_eq_reserved_iff] using all_above
  · simpa only [decodeByte_eq_reserved_iff, decide_eq_true_eq] using none_below
theorem exec_reserved_eq (c : Byte) (s : State) :
    exec (.reserved c) s = .next { s with status := s.status ||| 0x00000100#32 } := rfl

/-- Settles O19: from 0x07 on a byte decodes to itself as a reserved command, which ORs bit 8 into STATUS. -/
theorem reservedCommandOnlySetsIll : Obligations.ReservedCommandOnlySetsIll := by
  refine ⟨decodeByte_eq_reserved_iff, reservedBytes_count, fun s c hc => ?_, fun s c => exec_reserved_eq c s⟩
  rw [(decodeByte_eq_reserved_iff c).2 hc]
  exact exec_reserved_eq c s

end Sys2Proof.Machine

namespace Sys2Proof.Machine

/-! ### Host writes (20_memory.md R40, R44) -/

/-- Settles O8: serving the write is `memWrite` of a byte into a canonical SRF. -/
theorem hostWriteChangesOnlyItsCell : Obligations.HostWriteChangesOnlyItsCell := by
  intro s k a v rest hwf hq hs
  exact ⟨_, step_cons hq hs, srfByte_memWrite_same hwf a v, fun _ hb => srfByte_memWrite_other _ v hb,
    memWrite_wf hwf a v, rfl⟩

/-! ### Cells no command reads (20_memory.md R42, R43) -/

section Unread
variable {a : Byte} (ha : unread a = true) (s : State) (v : Byte)
include ha

/-- A cell that some command reads is not the written one. -/
theorem srfByte_memWrite_unread {b : Byte} (hb : unread b = false) : srfByte (memWrite s a v) b = srfByte s b :=
  srfByte_memWrite_other s v fun h => by simp [h, ha] at hb

/-- Every cell of the calibration image is one that LDCAL reads (40_calibration_fusion.md R63 to R70). -/
theorem fuseCalib_memWrite_unread : fuseCalib (memWrite s a v) = fuseCalib s := by
  simp (disch := decide) only [fuseCalib, fuseU16, fuseS16, fuseU8, fuseS8, fuseH4, fuseH5, srfWord,
    srfByte_memWrite_unread ha]

/-- Every cell of the data burst is one that LDRAW reads (41_raw_acquisition.md R75). -/
theorem memRead_burst_memWrite_unread : memRead (memWrite s a v) 0xF7#8 8 = memRead s 0xF7#8 8 := by
  simp (disch := decide) only [memRead, srfByte_memWrite_unread ha]

end Unread

/-- The same computation under the same parameters, with writes that differ by `g`, gives answers that differ by `g`. -/
theorem commit_eq_andThen_commit {α : Type} (m : Arith α) {s s' : State} (hc : s'.config = s.config)
    (g : State → State) {k k' : α → Bool → State} (hk : ∀ x o, k' x o = g (k x o)) :
    commit m s' k' = andThen (commit m s k) fun t => .next (g t) := by
  unfold commit
  rw [hc]
  cases m.eval s.config.ovfPolicy false with
  | error f => rfl
  | ok r => exact congrArg Host.Outcome.next (hk r.1 r.2)

/-- Settles O23: only LDCAL and LDRAW read the SRF at all, and neither reads the written cell. -/
theorem unreadCellsNeverMatter : Obligations.UnreadCellsNeverMatter := by
  refine ⟨by decide, by decide, fun i s a v ha => ?_⟩
  cases i with
  | nop | clrs | reserved => rfl
  | ldcal => simp only [exec, execLdcal, hostWrite_eq, fuseCalib_memWrite_unread ha]; rfl
  | ldraw => simp only [exec, execLdraw, hostWrite_eq, memRead_burst_memWrite_unread ha]; rfl
  | cmpt | cmpp | cmph => exact commit_eq_andThen_commit _ rfl (hostWrite a v) fun _ _ => rfl

/-! ### Sticky bits (10_state.md R25) -/

/-- In the table of R25 only CLRS brings a sticky field to 0. -/
theorem mayBring_sticky_false {i : Instr} {f : Flag} (hf : f.sticky = true) (hi : i ≠ .clrs) :
    mayBring i f false = false := by
  cases f with
  | calv | rawv | tfv | pfail => cases hf
  | ord | nocal | noraw | ovf | ill =>
    cases i with
    | clrs => exact absurd rfl hi
    | nop | ldcal | ldraw | cmpt | cmpp | cmph | reserved => rfl

theorem exec_keeps_sticky {i : Instr} {s t : State} {f : Flag} (h : exec i s = .next t) (hf : f.sticky = true)
    (hi : i ≠ .clrs) (hs : s.flag f = true) : t.flag f = true := by
  by_contra ht
  have cleared : getFlag f t.status = false := Bool.eq_false_of_not_eq_true ht
  have tabled := exec_statusTabled h f fun he => ht (he.trans hs)
  simp [cleared, mayBring_sticky_false hf hi] at tabled

theorem serve_keeps_sticky {r : Request} {s t : State} {f : Flag} (h : serve r s = .next t) (hf : f.sticky = true)
    (hr : r ≠ .reset) (hi : ¬ issues r .clrs) (hs : s.flag f = true) : t.flag f = true := by
  obtain ⟨rfl, -⟩ | ⟨_, _, _, -, rfl⟩ | ⟨_, _, -, rfl⟩ | ⟨k, c, rfl, h⟩ := serve_next h
  · exact absurd rfl hr
  · exact hs
  · exact hs
  · exact exec_keeps_sticky h hf (fun hc => hi ((issues_command k c .clrs).2 hc)) hs

/-- Settles O46: the request served is the oldest one, and only the two excluded requests clear a sticky bit. -/
theorem stickyBitsStaySet : Obligations.StickyBitsStaySet := by
  intro s t f hf hs h hhead
  obtain ⟨-, rfl⟩ | ⟨r, rest, hq, -, h⟩ := step_next h
  · exact hs
  · obtain ⟨hr, hi⟩ := hhead r (by rw [hq]; rfl)
    exact serve_keeps_sticky h hf hr hi hs

/-! ### Result reads (45_control.md R106) -/

theorem step_read {s : State} {k : Nat} {idx : Byte} {rest : List Request}
    (hq : s.schedule = .host k (.read idx) :: rest) (hs : singleHost s.schedule = true) :
    step s = .next { s with schedule := rest, received := s.received ++ [readPort s idx] } :=
  step_cons hq hs

/-- What the read port answers depends on neither the schedule nor the host's log. -/
theorem readPort_withHost (s : State) (q : List Request) (l : List Word) (idx : Byte) :
    readPort { s with schedule := q, received := l } idx = readPort s idx := rfl

/-- Settles O10: the first read leaves every register, so the second answers the same word. -/
theorem resultReadHasNoSideEffect : Obligations.ResultReadHasNoSideEffect := by
  refine ⟨fun s k idx rest hq hs => step_read hq hs, fun s k idx rest hq hs => ?_⟩
  have hs' : singleHost (.host k (.read idx) :: rest) = true := singleHost_tail (hq ▸ hs)
  rw [run_succ_of_next (step_read hq hs), run_succ_of_next (step_read rfl hs'), readPort_withHost, List.append_assoc]
  rfl

end Sys2Proof.Machine

namespace Sys2Proof.Machine

/-! ### The decode table (30_encoding.md R57 to R59) -/

theorem rsvField_toNat (c : Byte) : (rsvField c).toNat = c.toNat / 16 := by
  simp only [rsvField, BitVec.extractLsb'_toNat, Nat.shiftRight_eq_div_pow]
  omega

theorem opField_toNat (c : Byte) : (opField c).toNat = c.toNat % 16 := by
  simp [opField]

theorem rsvField_eq_zero_iff (c : Byte) : rsvField c = 0#4 ↔ c.toNat / 16 = 0 := by
  rw [← rsvField_toNat, ← BitVec.toNat_inj, BitVec.toNat_zero]

/-- Settles O3: the two fields of a byte are the two halves of its value, and the decoder asks for nothing else. -/
theorem everyByteDecodesAsTabled : Obligations.EveryByteDecodesAsTabled := by
  refine fun c => ⟨fun h => ?_, fun h => ?_⟩
  · have hrsv : rsvField c ≠ 0#4 := mt (rsvField_eq_zero_iff c).1 h
    simp [decodeByte, hrsv]
  · have hrsv : rsvField c = 0#4 := (rsvField_eq_zero_iff c).2 h
    simp only [decodeByte, hrsv, bne_self_eq_false, Bool.false_eq_true, if_false, opField_toNat]
    generalize c.toNat % 16 = op
    match op with
    | 0 | 1 | 2 | 3 | 4 | 5 | 6 => rfl
    | n + 7 => simp

/-- Every byte has a row of the opcode table, or it is a reserved byte and decodes to itself as one. -/
theorem decodeByte_row_or_reserved (c : Byte) :
    (c, 0xFF#8, decodeByte c) ∈ opcodeRows ∨ (decodeByte c = .reserved c ∧ reservedByte c = true) := by
  revert c
  decide

theorem opcodeRows_encode_wf : ∀ r ∈ opcodeRows, encode r.2.2 = r.1 ∧ r.2.2.wf = true := by decide

theorem encode_decodeByte (c : Byte) : encode (decodeByte c) = c := by
  obtain hrow | ⟨hc, -⟩ := decodeByte_row_or_reserved c
  · exact (opcodeRows_encode_wf _ hrow).1
  · rw [hc]; rfl

theorem decodeByte_wf (c : Byte) : (decodeByte c).wf = true := by
  obtain hrow | ⟨hc, hres⟩ := decodeByte_row_or_reserved c
  · exact (opcodeRows_encode_wf _ hrow).2
  · rw [hc]; exact hres

/-- A well-formed command is what its own byte decodes to. -/
theorem decodeByte_encode : ∀ i : Instr, i.wf = true → decodeByte (encode i) = i
  | .nop => Laws.DecodeEncode.nop
  | .ldcal => Laws.DecodeEncode.ldcal
  | .ldraw => Laws.DecodeEncode.ldraw
  | .cmpt => Laws.DecodeEncode.cmpt
  | .cmpp => Laws.DecodeEncode.cmpp
  | .cmph => Laws.DecodeEncode.cmph
  | .clrs => Laws.DecodeEncode.clrs
  | .reserved c => Laws.DecodeEncode.reserved c

/-! ### Command streams (30_encoding.md R56) -/

theorem decodeStream_eq_map (bs : List Byte) : decodeStream bs = bs.map decodeByte := by
  induction bs with
  | nil => rfl
  | cons c rest ih => rw [decodeStream, ih, List.map_cons]

/-- Settles O1: a stream is coded byte by byte, and each command is what its own byte decodes to. -/
theorem commandStreamRoundTrip : Obligations.CommandStreamRoundTrip := by
  refine ⟨fun is hwf => ⟨?_, List.length_map _⟩, fun i rest hwf => ?_⟩
  · rw [decodeStream_eq_map, encodeStream, List.map_map]
    exact (List.map_congr_left fun i hi => decodeByte_encode i (hwf i hi)).trans (List.map_id' is)
  · rw [decode, decodeByte_encode i hwf]

/-- Settles O2: each byte is the encoding of what it decodes to, which is well-formed. -/
theorem byteStreamsAreCommandStreams : Obligations.ByteStreamsAreCommandStreams := by
  intro bs
  rw [decodeStream_eq_map, encodeStream, List.map_map, List.forall_mem_map]
  exact ⟨List.map_id'' encode_decodeByte bs, fun c _ => decodeByte_wf c⟩

/-- A table word of 8 bits is laid out as one byte, the lowest byte of its value. -/
theorem decodeTableWord_byte (w : Nat) : decodeTableWord 8 w = some (decodeByte (BitVec.ofNat 8 w)) := by
  have one_byte : layOut 8 w = [BitVec.ofNat 8 w] := by
    simp [layOut, ← BitVec.toNat_inj]
  rw [decodeTableWord, one_byte, decode]

/-- Settles O4: each word is one byte, looked up in the decode table. -/
theorem tableWordsDecode : Obligations.TableWordsDecode := by
  simp only [Obligations.TableWordsDecode, decodeTableWord_byte, Option.some.injEq]
  decide

/-! ### The order of the compensations (44_humidity.md R126) -/

theorem exec_wrapFlag_next (i : Instr) {s : State} (hs : s.config.ovfPolicy = .wrapFlag) :
    ∃ t, exec i s = .next t ∧ t.config.ovfPolicy = .wrapFlag := by
  obtain ⟨t, ht⟩ := exec_wrapFlag_completes i hs
  obtain ⟨-, hconfig, -⟩ := exec_keeps_host ht
  exact ⟨t, ht, by rw [hconfig, hs]⟩

/-- CMPP and CMPH with a valid T_FINE neither set ORD nor make T_FINE stale. -/
theorem cmpp_cmph_keep_ord {i : Instr} (hi : i = .cmpp ∨ i = .cmph) {s t : State} (h : exec i s = .next t)
    (htfv : s.flag .tfv = true) : t.flag .ord = s.flag .ord ∧ t.flag .tfv = true := by
  have tfv_kept : t.flag .tfv = s.flag .tfv := exec_keeps_flag h (by obtain rfl | rfl := hi <;> decide)
  exact ⟨by rw [cmpp_cmph_ord hi h, htfv, Bool.not_true, Bool.or_false], tfv_kept.trans htfv⟩

/-- Settles O52: CMPT sets TFV and leaves ORD, and after it CMPP and CMPH keep both. -/
theorem rightOrderNeverSetsOrd : Obligations.RightOrderNeverSetsOrd := by
  intro s hs
  obtain ⟨a, ha, hpa⟩ := exec_wrapFlag_next .cmpt hs
  obtain ⟨b, hb, hpb⟩ := exec_wrapFlag_next .cmpp hpa
  obtain ⟨c, hc, -⟩ := exec_wrapFlag_next .cmph hpb
  have ord_a : a.flag .ord = s.flag .ord := exec_keeps_flag ha (by decide)
  obtain ⟨-, -, tfv_iff⟩ := exec_validityBits_iff ha
  obtain ⟨ord_b, tfv_b⟩ := cmpp_cmph_keep_ord (.inl rfl) hb (tfv_iff.2 (.inl rfl))
  obtain ⟨ord_c, tfv_c⟩ := cmpp_cmph_keep_ord (.inr rfl) hc tfv_b
  refine ⟨c, ?_, ord_c.trans (ord_b.trans ord_a), tfv_c⟩
  rw [ha, andThen, hb, andThen, hc]

end Sys2Proof.Machine

namespace Sys2Proof.Machine

/-! ### The calibration image as bytes side by side (40_calibration_fusion.md R64 to R70) -/

theorem toNat_append_eq_add {m n : Nat} (hi : BitVec m) (lo : BitVec n) :
    (hi ++ lo).toNat = hi.toNat * 2 ^ n + lo.toNat := by
  rw [BitVec.toNat_append, ← Nat.shiftLeft_add_eq_or_of_lt lo.isLt, Nat.shiftLeft_eq]

/-- The sign extension of a field is its signed reading (00_scope.md R11). -/
theorem sext_toNat {n : Nat} (x : BitVec n) : sext n x.toNat = x.toInt := by
  rw [BitVec.toInt_eq_msb_cond, BitVec.msb_eq_getLsbD_last]
  simp [sext, BitVec.getLsbD]

/-- A packed 12-bit field with its top nibble filled has the field's signed reading. -/
theorem sext_signTop12_toNat (x : BitVec 12) : sext 16 (signTop12 x.toNat) = x.toInt := by
  rw [sext_signTop12 x.isLt, BitVec.toInt_eq_toNat_cond]
  omega

section Fusion
variable (s : State)

theorem srfWord_eq_append (a : Byte) : srfWord s a = (srfByte s (a + 1#8) ++ srfByte s a).toNat := by
  rw [toNat_append_eq_add, srfWord]
  omega

theorem fuseU16_eq_append (a : Byte) : fuseU16 s a = srfByte s (a + 1#8) ++ srfByte s a := by
  rw [fuseU16, srfWord_eq_append]
  exact (BitVec.ofNat_toNat ..).trans (BitVec.setWidth_eq _)

theorem fuseS16_eq_append (a : Byte) : fuseS16 s a = srfByte s (a + 1#8) ++ srfByte s a := by
  rw [fuseS16, srfWord_eq_append]
  exact (congrArg _ (sext_toNat _)).trans BitVec.ofInt_toInt

theorem fuseU8_eq (a : Byte) : fuseU8 s a = srfByte s a :=
  (BitVec.ofNat_toNat ..).trans (BitVec.setWidth_eq _)

theorem fuseS8_eq (a : Byte) : fuseS8 s a = srfByte s a := by
  rw [fuseS8, sext_toNat, BitVec.ofInt_toInt]

theorem fuseH4_eq_append :
    fuseH4 s = (srfByte s 0xE4#8 ++ (srfByte s 0xE5#8).extractLsb' 0 4 : BitVec 12).signExtend 16 := by
  have packed : (srfByte s 0xE4#8).toNat * 16 + ((srfByte s 0xE5#8).toNat &&& 0x0F) =
      (srfByte s 0xE4#8 ++ (srfByte s 0xE5#8).extractLsb' 0 4 : BitVec 12).toNat := by
    rw [toNat_append_eq_add, BitVec.extractLsb'_toNat, Nat.shiftRight_zero, ← Nat.and_two_pow_sub_one_eq_mod]
    rfl
  rw [fuseH4, packed, sext_signTop12_toNat, BitVec.signExtend]

theorem fuseH5_eq_append :
    fuseH5 s = (srfByte s 0xE6#8 ++ (srfByte s 0xE5#8).extractLsb' 4 4 : BitVec 12).signExtend 16 := by
  have nibble : (srfByte s 0xE5#8).toNat >>> 4 < 2 ^ 4 :=
    BitVec.toNat_ushiftRight_lt (srfByte s 0xE5#8) 4 (by decide)
  have packed : (srfByte s 0xE6#8).toNat * 16 + (srfByte s 0xE5#8).toNat >>> 4 =
      (srfByte s 0xE6#8 ++ (srfByte s 0xE5#8).extractLsb' 4 4 : BitVec 12).toNat := by
    rw [toNat_append_eq_add, BitVec.extractLsb'_toNat, Nat.mod_eq_of_lt nibble]
    rfl
  rw [fuseH5, packed, sext_signTop12_toNat, BitVec.signExtend]

end Fusion

/-- Settles O20, coefficient by coefficient; the STATUS word sets bit 0 and clears bit 2. -/
theorem ldcalFusesTheImage : Obligations.LdcalFusesTheImage := by
  intro s
  rw [exec, execLdcal, fuseCalib]
  simp only [fuseU16_eq_append, fuseS16_eq_append, fuseU8_eq, fuseS8_eq, fuseH4_eq_append, fuseH5_eq_append]
  rfl

/-! ### LDCAL repeated, LDCAL of a blank image (40_calibration_fusion.md R72, 43_pressure.md R90) -/

theorem ldcalStatus_idem (w : Word) : ldcalStatus (ldcalStatus w) = ldcalStatus w :=
  status_ext (fun f => by simp only [getFlag_ldcalStatus]; split_ifs <;> rfl) fun _ hk => ldcalStatus_reserved _ hk

/-- LDCAL reads nothing that it writes but STATUS, and its change of STATUS is idempotent. -/
theorem exec_ldcal_idem {s t : State} (h : exec .ldcal s = .next t) : exec .ldcal t = .next t := by
  cases h
  exact congrArg (fun w => Host.Outcome.next { s with calib := fuseCalib s, status := w }) (ldcalStatus_idem s.status)

theorem fuseCalib_blank {s : State}
    (h : ∀ a : Byte, (0x88#8 ≤ a ∧ a ≤ 0x9F#8) ∨ a = 0xA1#8 ∨ (0xE1#8 ≤ a ∧ a ≤ 0xE7#8) → srfByte s a = 0x00#8) :
    fuseCalib s = Calib.zero := by
  simp (disch := decide) only [fuseCalib, fuseU16, fuseS16, fuseU8, fuseS8, fuseH4, fuseH5, srfWord, h]
  rfl

/-- P1 = 0 makes the divisor 0, whatever the slope (43_pressure.md R89, R90). -/
theorem vendorPressDivisor_of_p1_zero (tf : Word) {c : Calib} (h : c.p1 = 0#16) : vendorPressDivisor tf c = 0#32 := by
  have p1 : c.word .p1 = 0#32 := by rw [Calib.word, Calib.value, h]; rfl
  simp [vendorPressDivisor, p1]

/-- P1 = 0 stops the computation at the guard. -/
theorem pressure_of_p1_zero (tf : Word) (adcP : BitVec 20) {c : Calib} (h : c.p1 = 0#16) :
    (pressure tf.toInt adcP.toNat c).GivesValue none := by
  have guard := pressure_word tf (adcP.setWidth 32) c
  rwa [if_pos (vendorPressDivisor_of_p1_zero tf h), ← reading_eq_word adcP (by decide)] at guard

theorem exec_cmpp_of_p1_zero {s u : State} (hp1 : s.calib.p1 = 0#16) (h : exec .cmpp s = .next u) :
    u.flag .pfail = true ∧ u.pOut = 0#32 := by
  obtain ⟨p, b, hp, rfl⟩ := execCmpp_next h
  obtain ⟨c, guard⟩ := pressure_of_p1_zero s.tFine s.adcP hp1
  obtain ⟨rfl, -⟩ := Arith.gives_unique hp guard
  exact ⟨by simp [State.flag, getFlag_cmppStatus], rfl⟩

theorem exec_ldcal_flag {s t : State} (h : exec .ldcal s = .next t) :
    t.flag .calv = true ∧ t.flag .tfv = false := by
  cases h
  exact ⟨getFlag_ldcalStatus .calv s.status, getFlag_ldcalStatus .tfv s.status⟩

/-- Settles O22: a blank image has P1 = 0, where a CMPP that completes ends at its guard. -/
theorem ldcalCornerCases : Obligations.LdcalCornerCases := by
  refine ⟨fun s t => exec_ldcal_idem, fun s hblank => ?_⟩
  obtain ⟨t, ht, hcalib⟩ : ∃ t, exec .ldcal s = .next t ∧ t.calib = Calib.zero :=
    ⟨_, rfl, fuseCalib_blank hblank⟩
  obtain ⟨hcalv, -⟩ := exec_ldcal_flag ht
  refine ⟨t, ht, fun k => by rw [hcalib]; cases k <;> rfl, hcalv, ?_⟩
  obtain ⟨u, hu⟩ | ⟨hf, -⟩ := exec_answers .cmpp t
  · exact .inr ⟨u, hu, exec_cmpp_of_p1_zero (by rw [hcalib]; rfl) hu⟩
  · exact .inl hf

/-! ### T_FINE after LDCAL (40_calibration_fusion.md R74) -/

/-- Settles O53: LDCAL clears TFV, and CMPP and CMPH OR its negation into ORD. -/
theorem ldcalMakesFineTemperatureStale : Obligations.LdcalMakesFineTemperatureStale := by
  intro s
  obtain ⟨t, ht⟩ : ∃ t, exec .ldcal s = .next t := ⟨_, rfl⟩
  obtain ⟨-, htfv⟩ := exec_ldcal_flag ht
  refine ⟨t, ht, htfv, fun i u hi hu => ⟨?_, ?_⟩⟩
  · rw [cmpp_cmph_ord hi hu, htfv, Bool.not_false, Bool.or_true]
  · have hne : i ≠ .cmpt := by rintro rfl; simp at hi
    exact (exec_keeps_tFine hu hne).trans (exec_keeps_tFine ht (by decide))

end Sys2Proof.Machine

namespace Sys2Proof.Machine

/-! ### The data burst as bytes side by side (41_raw_acquisition.md R75 to R77) -/

/-- Shifting the 24-bit value right by 4 leaves the top nibble of the XLSB. -/
theorem reading20_eq_append (msb lsb xlsb : Byte) :
    reading20 msb lsb xlsb = msb ++ lsb ++ xlsb.extractLsb' 4 4 := by
  have nibble : xlsb.toNat >>> 4 < 2 ^ 4 := BitVec.toNat_ushiftRight_lt xlsb 4 (by decide)
  have shifted : (msb.toNat * 65536 + lsb.toNat * 256 + xlsb.toNat) >>> 4 =
      (msb ++ lsb ++ xlsb.extractLsb' 4 4).toNat := by
    rw [toNat_append_eq_add, toNat_append_eq_add, BitVec.extractLsb'_toNat, Nat.mod_eq_of_lt nibble]
    omega
  rw [reading20, shifted]
  exact (BitVec.ofNat_toNat ..).trans (BitVec.setWidth_eq _)

theorem reading16_eq_append (msb lsb : Byte) : reading16 msb lsb = msb ++ lsb := by
  have value : msb.toNat * 256 + lsb.toNat = (msb ++ lsb).toNat := (toNat_append_eq_add msb lsb).symm
  rw [reading16, value]
  exact (BitVec.ofNat_toNat ..).trans (BitVec.setWidth_eq _)

/-- Settles O21, reading by reading; the STATUS word sets bit 1 and clears bit 2. -/
theorem ldrawAssemblesTheBurst : Obligations.LdrawAssemblesTheBurst := by
  intro s
  rw [exec, execLdraw]
  simp only [reading20_eq_append, reading16_eq_append]
  rfl

/-! ### CMPP right after LDRAW (43_pressure.md R96, R126) -/

theorem exec_ldraw_tfv {s t : State} (h : exec .ldraw s = .next t) : t.flag .tfv = false := by
  cases h
  exact getFlag_ldrawStatus .tfv s.status

theorem exec_ldraw_adcP (s : State) : ∃ t, exec .ldraw s = .next t ∧
    t.adcP = srfByte s 0xF7#8 ++ srfByte s 0xF8#8 ++ (srfByte s 0xF9#8).extractLsb' 4 4 :=
  ⟨_, ldrawAssemblesTheBurst s, rfl⟩

/-- Settles O51: LDRAW leaves the new ADC_P beside the T_FINE and coefficients held before, with TFV = 0, and CMPP is
the vendor routine on these. -/
theorem reorderedPressureUsesTheOldFineTemperature : Obligations.ReorderedPressureUsesTheOldFineTemperature := by
  intro s hs
  obtain ⟨t, ht, hadcP⟩ := exec_ldraw_adcP s
  obtain ⟨-, hconfig, -⟩ := exec_keeps_host ht
  have hfine : t.tFine = s.tFine := exec_keeps_tFine ht (by decide)
  have hcalib : t.calib = s.calib := exec_keeps_calib ht (by decide)
  obtain ⟨u, hu, -, hpOut, -⟩ := cmppMatchesVendorListing t (by rw [hconfig, hs])
  refine ⟨t, u, ht, hu, (exec_keeps_tFine hu (by decide)).trans hfine, ?_, ?_⟩
  · rw [cmpp_cmph_ord (.inl rfl) hu, exec_ldraw_tfv ht, Bool.not_false, Bool.or_true]
  · rw [hpOut, hfine, hadcP, hcalib]

end Sys2Proof.Machine

namespace Sys2Proof.Machine

/-! ### CMPT absent overflow (42_temperature.md R80 to R85) -/

/-- SHIFT of R7 in integers; `tempDiv_shift_floor` says it in rationals. -/
theorem tempDiv_shift_ediv (num : Int) : tempDiv .shift num = num / 256 := rfl

/-- TRUNC of R7 in integers; `tempDiv_trunc_round` says it in rationals. -/
theorem tempDiv_trunc_ediv (num : Int) :
    tempDiv .trunc num = if 0 ≤ num then num / 256 else -(-num / 256) :=
  (tempDiv_trunc_round num).trans (congrArg₂ (ite (0 ≤ num)) (Rat.floor_intCast_div_natCast num 256)
    (Rat.ceil_intCast_div_natCast num 256))

/-- Either division by 256 keeps a number in s32. -/
theorem tempDiv_inS32 (mode : TDivMode) {num : Int} (h : inS32 num) : inS32 (tempDiv mode num) := by
  cases mode with
  | shift => rw [tempDiv_shift_ediv]; omega
  | trunc => rw [tempDiv_trunc_ediv]; split <;> omega

/-- A number of s32 is what the word written from it reads back as. -/
theorem toInt_ofInt_of_inS32 {r : Int} (h : inS32 r) : (BitVec.ofInt 32 r).toInt = r := by
  rw [toInt_ofInt_eq_wrapS32, wrapS32_of_inS32 h]

/-- Absent overflow, CMPT writes the exact t_fine and the quotient of the exact number of R83. -/
theorem exec_cmpt_of_allS32 {s : State} (h : allS32 (tempChecked s)) :
    exec .cmpt s =
      .next (writeTemperature s (tempFine s, tempDiv s.config.tDivMode (5 * tempFine s + 128)) false) :=
  commit_inRange (temperature_checks ..) s (writeTemperature s) h

/-- Without an overflow mark CMPT's STATUS computation changes TFV, NOCAL and NORAW only (42_temperature.md R85). -/
theorem getFlag_cmptStatus_false {f : Flag} (htfv : f ≠ .tfv) (hnocal : f ≠ .nocal) (hnoraw : f ≠ .noraw) (w : Word) :
    getFlag f (cmptStatus false w) = getFlag f w := by
  rw [getFlag_cmptStatus]
  cases f with
  | tfv => exact absurd rfl htfv
  | nocal => exact absurd rfl hnocal
  | noraw => exact absurd rfl hnoraw
  | ovf => exact Bool.or_false _
  | calv | rawv | pfail | ord | ill => rfl

/-- Settles O24: t_fine and the number that is divided are among the checked results, so the registers hold them. -/
theorem cmptResultAbsentOverflow : Obligations.CmptResultAbsentOverflow := by
  intro s h
  have fine : inS32 (tempFine s) := h _ (by simp [tempChecked, exactTempChecked, tempFine])
  have number : inS32 (5 * tempFine s + 128) := h _ (by simp [tempChecked, exactTempChecked, tempFine])
  refine ⟨_, exec_cmpt_of_allS32 h, onlyTemp_writeTemperature .., toInt_ofInt_of_inS32 fine,
    (toInt_ofInt_of_inS32 (tempDiv_inS32 _ number)).trans ?_, getFlag_cmptStatus .tfv .., getFlag_cmptStatus .nocal ..,
    getFlag_cmptStatus .noraw .., fun f htfv hnocal hnoraw => getFlag_cmptStatus_false htfv hnocal hnoraw _⟩
  cases s.config.tDivMode with
  | shift => exact tempDiv_shift_ediv _
  | trunc => exact tempDiv_trunc_ediv _

/-! ### What CMPT's results depend on (42_temperature.md R86) -/

theorem temperature_congr (mode : TDivMode) (adcT : Int) {c d : Calib} (h1 : c.t1 = d.t1) (h2 : c.t2 = d.t2)
    (h3 : c.t3 = d.t3) : temperature mode adcT c = temperature mode adcT d := by
  simp only [temperature, Calib.value, h1, h2, h3]

/-- Settles O27: the same inputs make the same computation, and a computation gives one value under both policies. -/
theorem cmptIsAPureFunction : Obligations.CmptIsAPureFunction := by
  intro s s' t t' ha h1 h2 h3 hm ht ht'
  obtain ⟨v, b, hv, rfl⟩ := execCmpt_next ht
  obtain ⟨v', b', hv', rfl⟩ := execCmpt_next ht'
  rw [← hm, ← ha, ← temperature_congr _ _ h1 h2 h3] at hv'
  obtain ⟨rfl, -⟩ := Arith.gives_unique hv hv'
  exact ⟨rfl, rfl⟩

end Sys2Proof.Machine

namespace Sys2Proof.Machine

/-! ### CMPP absent overflow (43_pressure.md R88 to R96) -/

/-- Absent overflow, CMPP writes what the exact formula gives. -/
theorem exec_cmpp_of_allS32 {s : State} (h : allS32 (pressExact s).checked) :
    exec .cmpp s = .next (writePressure s (pressExact s).value false) :=
  commit_inRange (pressure_checks ..) s (writePressure s) h

/-- The pressure of R93 is a 32-bit number, and the guard of R90 leaves 0. -/
theorem pressExact_value_lt (s : State) : (pressExact s).value.getD 0 < 4294967296 := by
  unfold pressExact exactPressure
  extract_lets
  split
  · exact Nat.zero_lt_succ _
  · rw [Option.getD_some]
    omega

/-- Without an overflow mark CMPP's STATUS computation changes PFAIL, ORD, NOCAL and NORAW only (43_pressure.md R96). -/
theorem getFlag_cmppStatus_false {f : Flag} (hpfail : f ≠ .pfail) (hord : f ≠ .ord) (hnocal : f ≠ .nocal)
    (hnoraw : f ≠ .noraw) (p : Bool) (w : Word) : getFlag f (cmppStatus p false w) = getFlag f w := by
  rw [getFlag_cmppStatus]
  cases f with
  | pfail => exact absurd rfl hpfail
  | ord => exact absurd rfl hord
  | nocal => exact absurd rfl hnocal
  | noraw => exact absurd rfl hnoraw
  | ovf => exact Bool.or_false _
  | calv | rawv | tfv | ill => rfl

/-- Settles O29: the formula's value is a 32-bit number, so P_OUT holds it. -/
theorem cmppResultAbsentOverflow : Obligations.CmppResultAbsentOverflow := fun s h =>
  ⟨_, exec_cmpp_of_allS32 h, onlyPress_writePressure ..,
    (BitVec.toNat_ofNat ..).trans (Nat.mod_eq_of_lt (pressExact_value_lt s)), getFlag_cmppStatus .pfail ..,
    getFlag_cmppStatus .ord .., getFlag_cmppStatus .nocal .., getFlag_cmppStatus .noraw ..,
    fun _ hpfail hord hnocal hnoraw => getFlag_cmppStatus_false hpfail hord hnocal hnoraw ..⟩

/-! ### The degenerate-calibration guard (43_pressure.md R89, R90) -/

/-- The first line of R89 shifts a sum of two checked products. -/
theorem pressExact_slope_eq (s : State) : ∃ x ∈ (pressExact s).checked, ∃ y ∈ (pressExact s).checked,
    (pressExact s).slope = (x / 8 + y / 2) / 262144 := by
  unfold pressExact exactPressure
  extract_lets v q _ _ _ _ _ before
  have cubic : s.calib.value .p3 * (q * q / 8192) ∈ before := by simp [before]
  have linear : s.calib.value .p2 * v ∈ before := by simp [before]
  split
  · exact ⟨_, cubic, _, linear, rfl⟩
  · exact ⟨_, List.mem_append_left _ cubic, _, List.mem_append_left _ linear, rfl⟩

theorem pressExact_divisor_eq (s : State) :
    (pressExact s).divisor = (32768 + (pressExact s).slope) * s.calib.p1.toNat / 32768 := by
  unfold pressExact exactPressure
  extract_lets
  split <;> rfl

theorem pressExact_value_isNone_iff (s : State) : (pressExact s).value.isNone = true ↔ (pressExact s).divisor = 0 := by
  unfold pressExact exactPressure
  extract_lets
  split <;> simpa

theorem pressExact_slope_bounds {s : State} (h : allS32 (pressExact s).checked) :
    -5120 ≤ (pressExact s).slope ∧ (pressExact s).slope ≤ 5119 := by
  obtain ⟨x, hx, y, hy, hslope⟩ := pressExact_slope_eq s
  have := h x hx
  have := h y hy
  omega

/-- The divisor of R89 on a slope within its bounds: P1 = 2 already brings it to 1. -/
theorem divisor_nonneg_and_zero_iff {m : Int} (hm : -5120 ≤ m ∧ m ≤ 5119) (n : Nat) :
    0 ≤ (32768 + m) * n / 32768 ∧ ((32768 + m) * n / 32768 = 0 ↔ n = 0 ∨ n = 1 ∧ m < 0) := by
  obtain rfl | rfl | hn : n = 0 ∨ n = 1 ∨ 2 ≤ n := by omega
  · omega
  · omega
  · have : (32768 + m) * 2 ≤ (32768 + m) * n := Int.mul_le_mul_of_nonneg_left (by omega) (by omega)
    omega

/-- Settles O32: PFAIL is set where the divisor is 0, and the bounds of the slope leave P1 = 0 and P1 = 1 for that. -/
theorem degenerateGuardFiresExactly : Obligations.DegenerateGuardFiresExactly := by
  intro s h
  have bounds := pressExact_slope_bounds h
  obtain ⟨nonneg, zero_iff⟩ := divisor_nonneg_and_zero_iff bounds s.calib.p1.toNat
  rw [← pressExact_divisor_eq] at nonneg zero_iff
  obtain ⟨t, ht, -, hpOut, hpfail, -⟩ := cmppResultAbsentOverflow s h
  refine ⟨bounds, nonneg, t, ht, ?_, fun hset => ?_⟩
  · rw [hpfail, pressExact_value_isNone_iff, zero_iff, ← BitVec.toNat_inj, ← BitVec.toNat_inj]
    rfl
  · rw [hpfail, Option.isNone_iff_eq_none] at hset
    rw [hset] at hpOut
    exact BitVec.eq_of_toNat_eq hpOut

/-! ### The two forms of the pressure division (43_pressure.md R91, R92) -/

theorem pressQuotient_of_lt {p : Nat} (hp : p < 0x80000000) (d : Nat) : pressQuotient p d = 2 * p / d := by
  have h := pressQuotient_cast (p := p) (by omega) d
  rw [if_pos (by omega)] at h
  exact_mod_cast h

theorem pressQuotient_of_ge {p : Nat} (hp : 0x80000000 ≤ p) (hlt : p < 4294967296) (d : Nat) :
    pressQuotient p d = 2 * (p / d) % 4294967296 := by
  have h := pressQuotient_cast hlt d
  rw [if_neg (by omega)] at h
  exact_mod_cast h

theorem asU32_ge_of_neg {v : Int} (hv : inS32 v) (hneg : v < 0) : 0x80000000 ≤ asU32 v := by
  rw [asU32]
  omega

/-- A dividend of 32 bits holds a divisor of 2^31 or more at most once. -/
theorem div_eq_zero_or_one {n d : Nat} (hn : n < 4294967296) (hd : 0x80000000 ≤ d) : n / d = 0 ∨ n / d = 1 :=
  Nat.le_one_iff_eq_zero_or_eq_one.1 (Nat.le_of_lt_succ (Nat.div_lt_of_lt_mul (by omega)))

/-- Settles O34: the divisor is 2^31 or more, and both dividends are of 32 bits. -/
theorem negativeDivisorQuotients : Obligations.NegativeDivisorQuotients := by
  intro p v hp hv hneg
  have large := asU32_ge_of_neg hv hneg
  refine ⟨fun hlt => ?_, fun hge => ?_⟩
  · rw [pressQuotient_of_lt hlt]
    exact div_eq_zero_or_one (by omega) large
  · rw [pressQuotient_of_ge hge hp]
    have := div_eq_zero_or_one hp large
    omega

/-- Settles O35: 687195 is the least d whose product with 3125 is 2^31 or more. -/
theorem divisionBranchBoundary : Obligations.DivisionBranchBoundary := by
  intro d v hd _ _
  have product : umul d 3125 = 3125 * d := by
    rw [umul]
    omega
  rw [product]
  exact ⟨rfl, fun hlt => pressQuotient_of_lt (by omega) v, fun hge => pressQuotient_of_ge (by omega) (by omega) v⟩

end Sys2Proof.Machine

namespace Sys2Proof.Machine

/-! ### CMPH absent overflow (44_humidity.md R97 to R102) -/

/-- Absent overflow, CMPH writes the clamped value of the exact formula. -/
theorem exec_cmph_of_allS32 {s : State} (h : allS32 (humExact s).checked) :
    exec .cmph s = .next (writeHumidity s (humClamp (humExact s).unclamped / 4096) false) :=
  commit_inRange (humidity_checks ..) s (writeHumidity s) h

/-- The clamp of R99 before the shift of R100 is the clamp of the shifted value to [0, 102400]. -/
theorem humClamp_ediv (v : Int) :
    humClamp v / 4096 = if v < 0 then 0 else if 419430400 < v then 102400 else v / 4096 := by
  by_cases hneg : v < 0
  · rw [humClamp, if_pos hneg, if_pos hneg]
    rfl
  · rw [humClamp, if_neg hneg, if_neg hneg]
    exact apply_ite (· / 4096) ..

/-- H_OUT reads back as the clamped value: it lies in 0..102400 (44_humidity.md R100). -/
theorem writeHumidity_hOut_toNat (s : State) (v : Int) (o : Bool) :
    ((writeHumidity s (humClamp v / 4096) o).hOut.toNat : Int) = humClamp v / 4096 := by
  have range := humClamp_range v
  rw [writeHumidity, BitVec.toNat_ofInt]
  omega

/-- Without an overflow mark CMPH's STATUS computation changes ORD, NOCAL and NORAW only (44_humidity.md R102). -/
theorem getFlag_cmphStatus_false {f : Flag} (hord : f ≠ .ord) (hnocal : f ≠ .nocal) (hnoraw : f ≠ .noraw) (w : Word) :
    getFlag f (cmphStatus false w) = getFlag f w := by
  rw [getFlag_cmphStatus]
  cases f with
  | ord => exact absurd rfl hord
  | nocal => exact absurd rfl hnocal
  | noraw => exact absurd rfl hnoraw
  | ovf => exact Bool.or_false _
  | calv | rawv | tfv | pfail | ill => rfl

/-- Settles O36: the clamp of R99 brings the formula's value into the range of H_OUT, so H_OUT holds it. -/
theorem cmphResultAbsentOverflow : Obligations.CmphResultAbsentOverflow := fun _ h =>
  ⟨_, exec_cmph_of_allS32 h, onlyHum_writeHumidity .., (writeHumidity_hOut_toNat ..).trans (humClamp_ediv _),
    getFlag_cmphStatus .ord .., getFlag_cmphStatus .nocal .., getFlag_cmphStatus .noraw ..,
    fun _ hord hnocal hnoraw => getFlag_cmphStatus_false hord hnocal hnoraw _⟩

end Sys2Proof.Machine

namespace Sys2Proof.Machine

/-! ### NOP and CLRS (45_control.md R103, R104) -/

/-- Settles O17: NOP's answer is the state it was given, STATUS with ILL included. -/
theorem nopChangesNothing : Obligations.NopChangesNothing :=
  ⟨decodeByte_encode .nop rfl, fun _ => rfl⟩

theorem putFlag_false (f : Flag) (w : Word) : putFlag f false w = w &&& ~~~f.mask := rfl

/-- Clearing the five sticky fields one after the other is one AND: their masks are bits 4 to 8. -/
theorem clrsStatus_eq_and (w : Word) : clrsStatus w = w &&& 0xFFFFFE0F#32 := by
  have masks : ~~~Flag.ord.mask &&& (~~~Flag.nocal.mask &&& (~~~Flag.noraw.mask &&&
      (~~~Flag.ovf.mask &&& ~~~Flag.ill.mask))) = 0xFFFFFE0F#32 := by decide
  simp only [clrsStatus, putFlag_false, BitVec.and_assoc, masks]

theorem exec_clrs_eq (s : State) : exec .clrs s = .next { s with status := s.status &&& 0xFFFFFE0F#32 } := by
  rw [← clrsStatus_eq_and]
  rfl

/-- Settles O18: CLRS is one AND on STATUS, and STATUS is already 0 right after reset. -/
theorem clrsClearsTheStickyBits : Obligations.ClrsClearsTheStickyBits :=
  ⟨decodeByte_encode .clrs rfl, exec_clrs_eq, exec_clrs_eq State.reset⟩

end Sys2Proof.Machine

namespace Sys2Proof.Machine

/-! ### The order of CMPP and CMPH (70_reset_and_hazards.md R130) -/

/-- Both OR into the sticky fields, from TFV, CALV and RAWV, which neither changes; only CMPP writes PFAIL. -/
theorem cmphStatus_cmppStatus_comm (pfail a b : Bool) (w : Word) :
    cmphStatus b (cmppStatus pfail a w) = cmppStatus pfail a (cmphStatus b w) := by
  refine status_ext (fun f => ?_) fun _ hk => ?_
  · simp only [getFlag_cmphStatus, getFlag_cmppStatus]
    cases f with
    | ovf => exact Bool.or_right_comm ..
    | calv | rawv | tfv | pfail | ord | nocal | noraw | ill => rfl
  · simp only [cmphStatus_reserved _ hk, cmppStatus_reserved _ hk]

theorem writeHumidity_writePressure_comm (s : State) (p : Option Nat) (a : Bool) (v : Int) (b : Bool) :
    writeHumidity (writePressure s p a) v b = writePressure (writeHumidity s v b) p a :=
  congrArg (fun w => { s with pOut := BitVec.ofNat 32 (p.getD 0), hOut := BitVec.ofInt 32 v, status := w })
    (cmphStatus_cmppStatus_comm p.isNone a b s.status)

/-- What follows `commit` sees only states that the command wrote. -/
theorem andThen_commit_congr {α : Type} {m : Arith α} {s : State} {k : α → Bool → State} {f g : State → Answer}
    (h : ∀ v b, f (k v b) = g (k v b)) : andThen (commit m s k) f = andThen (commit m s k) g := by
  unfold commit
  split
  · exact h _ _
  · rfl

/-- Two computations one after the other, neither of which depends on what the other writes: the writes commute, and
an overflow under FAULT in either ends both orders alike. -/
theorem andThen_commit_comm {α β : Type} {m : Arith α} {n : Arith β} (hm : m.Defined) (hn : n.Defined) (s : State)
    {k : State → α → Bool → State} {l : State → β → Bool → State} (hk : ∀ v a, (k s v a).config = s.config)
    (hl : ∀ w b, (l s w b).config = s.config) (hkl : ∀ v a w b, l (k s v a) w b = k (l s w b) v a) :
    andThen (commit m s (k s)) (fun t => commit n t (l t)) =
      andThen (commit n s (l s)) fun t => commit m t (k t) := by
  obtain ⟨v, a, hv⟩ := hm
  obtain ⟨w, b, hw⟩ := hn
  simp only [commit_of_gives hv, commit_of_gives hw]
  cases hp : s.config.ovfPolicy with
  | wrapFlag => simp only [andThen, hk, hl, hp, hkl]
  | fault =>
    cases a with
    | true => cases b <;> simp [andThen, hl, hp]
    | false =>
      cases b with
      | true => simp [andThen, hk, hp]
      | false => simp [andThen, hk, hl, hp, hkl]

/-- Settles O50: neither command writes what the other's computation reads, and the writes commute. -/
theorem cmppAndCmphCommute : Obligations.CmppAndCmphCommute := fun s =>
  calc andThen (exec .cmpp s) (exec .cmph)
    _ = andThen (exec .cmpp s) fun t => commit (humidity s.tFine.toInt s.adcH.toNat s.calib) t (writeHumidity t) :=
      andThen_commit_congr fun _ _ => rfl
    _ = andThen (exec .cmph s) fun t => commit (pressure s.tFine.toInt s.adcP.toNat s.calib) t (writePressure t) :=
      andThen_commit_comm (pressure_defined ..) (humidity_defined ..) s (fun _ _ => rfl) (fun _ _ => rfl)
        (writeHumidity_writePressure_comm s)
    _ = andThen (exec .cmph s) (exec .cmpp) := andThen_commit_congr fun _ _ => rfl

end Sys2Proof.Machine

namespace Sys2Proof.Machine

/-! ### Reset (70_reset_and_hazards.md R121 to R123) -/

@[simp] theorem Calib.zero_value (k : Coeff) : Calib.zero.value k = 0 := by cases k <;> rfl

/-- Settles O12, register by register. -/
theorem resetValues : Obligations.ResetValues :=
  ⟨rfl, fun _ => BitVec.getLsbD_zero, rfl, rfl, rfl, rfl, rfl, rfl, rfl, Calib.zero_value,
    fun a => Memory.read_nil a.toNat⟩

/-- Settles O13: the step serves the reset input in the state that no longer holds it. -/
theorem resetInputResetsTheEngine : Obligations.ResetInputResetsTheEngine := fun _ _ hq hs => step_cons hq hs

section AfterReset
variable (c : Config)

@[simp] theorem resetWith_tFine : (State.resetWith c).tFine = 0#32 := rfl
@[simp] theorem resetWith_adcT : (State.resetWith c).adcT = 0#20 := rfl
@[simp] theorem resetWith_adcP : (State.resetWith c).adcP = 0#20 := rfl
@[simp] theorem resetWith_adcH : (State.resetWith c).adcH = 0#16 := rfl
@[simp] theorem resetWith_calib : (State.resetWith c).calib = Calib.zero := rfl

/-! The inputs of the three formulas after reset are all 0. -/

theorem tempChecked_resetWith : tempChecked (State.resetWith c) = exactTempChecked 0 0 0 0 := by simp [tempChecked]

theorem tempFine_resetWith : tempFine (State.resetWith c) = exactFine 0 0 0 0 := by simp [tempFine]

theorem pressExact_resetWith : pressExact (State.resetWith c) = exactPressure 0 0 0 0 0 0 0 0 0 0 0 := by
  simp [pressExact]

theorem humExact_resetWith : humExact (State.resetWith c) = exactHumidity 0 0 0 0 0 0 0 0 := by simp [humExact]

/-- The rounding term 128 of R83 is less than the divisor, so T_OUT is 0 in either rounding. -/
theorem exec_cmpt_resetWith : exec .cmpt (State.resetWith c) =
    .next { State.resetWith c with tFine := 0#32, tOut := 0#32, status := 0x64#32 } := by
  have fine : exactFine 0 0 0 0 = 0 := by decide
  have rounding : ∀ mode, tempDiv mode (5 * 0 + 128) = 0 := by rintro (_ | _) <;> rfl
  have status : cmptStatus false 0#32 = 0x64#32 := by decide
  rw [exec_cmpt_of_allS32 (by rw [tempChecked_resetWith]; decide), tempFine_resetWith, fine, rounding,
    writeTemperature, resetWith_status, status]
  rfl

/-- P1 = 0, so the guard of R90 ends the computation. -/
theorem exec_cmpp_resetWith : exec .cmpp (State.resetWith c) =
    .next { State.resetWith c with pOut := 0#32, status := 0x78#32 } := by
  have guard : (exactPressure 0 0 0 0 0 0 0 0 0 0 0).value = none := by decide
  have status : cmppStatus true false 0#32 = 0x78#32 := by decide
  rw [exec_cmpp_of_allS32 (by rw [pressExact_resetWith]; decide), pressExact_resetWith, guard, writePressure,
    resetWith_status, Option.isNone_none, status]
  rfl

/-- ADC_H = 0 and the zero coefficients make the first factor of R97 zero. -/
theorem exec_cmph_resetWith : exec .cmph (State.resetWith c) =
    .next { State.resetWith c with hOut := 0#32, status := 0x70#32 } := by
  have zero : humClamp (exactHumidity 0 0 0 0 0 0 0 0).unclamped / 4096 = 0 := by decide
  have status : cmphStatus false 0#32 = 0x70#32 := by decide
  rw [exec_cmph_of_allS32 (by rw [humExact_resetWith]; decide), humExact_resetWith, zero, writeHumidity,
    resetWith_status, status]
  rfl

end AfterReset

/-- Settles O14, command by command: no checked result leaves s32, so the policy plays no part. -/
theorem compensationAfterReset : Obligations.CompensationAfterReset := fun c =>
  ⟨exec_cmpt_resetWith c, exec_cmpp_resetWith c, exec_cmph_resetWith c⟩

end Sys2Proof.Machine

namespace Sys2Proof.Machine

/-! ### Waiting (70_reset_and_hazards.md R122) -/

/-- The other case of `step_cons`: an empty schedule has no second host that could refuse the step. -/
theorem step_nil {s : State} (hq : s.schedule = []) : step s = .next s := by
  have hs : singleHost s.schedule = true := by rw [hq]; rfl
  rw [step, if_pos hs]
  split
  · rfl
  · next hq' => exact absurd (hq.symm.trans hq') (by simp)

/-- Settles O6: there is no request to serve. -/
theorem stepWaitsWhenNothingArrives : Obligations.StepWaitsWhenNothingArrives := fun _ hq => step_nil hq

end Sys2Proof.Machine
